-- ==== Sys2Proof/Config.lean ====
section
/-! DEFINITION. What the implementation fixes (`00_scope.md` R8, R10), at the spec's default values.
The maps `REG_NAMES` and `OPCODE_TOKENS` stand in Decode.lean (`Reg.name`, `Opcode.token`), `SHIFT_AMOUNT`
in Machine/Operands.lean (`shiftAmount`); `PC_BITS` is the width of `Word`; `TRACE_ENABLE` and the token
stream are inputs and stand in State. This machine has no free value: `93_implementation_defined.md`
treats none of its behaviours as "any value". -/

namespace Sys2Proof

/-- `MEM_WORDS`, the number of data-memory words (R8, D13). -/
def Config.memWords : Nat := 2000

/-- The largest stream length the spec requires of the host, 2^31 - 4 (R36, D6). -/
def Config.maxStreamLength : Nat := 2147483644

/-- `LITERAL_ACCEPTS_PLUS` (R10, R76, D3): a leading `+` is refused. -/
def Config.literalAcceptsPlus : Bool := false

end Sys2Proof
end

