-- ==== Sys2Proof/Word.lean ====
section
/-! DEFINITION. The machine word and the integer readings of it (`00_scope.md` R7, R11). -/

namespace Sys2Proof

/-- A word: 32 bits, bit 31 the most significant (R7, R11). Registers, data-memory words and the
program counter all hold one. -/
abbrev Word := BitVec 32

/-- `wrap32(n)` of R11: the one integer in -2^31 .. 2^31 - 1 that is congruent to `n` modulo 2^32. -/
def wrap32 (n : Int) : Int := (n + 2147483648) % 4294967296 - 2147483648

/-- `u32(v)` of R11: the word read as an unsigned integer. -/
def u32 (v : Word) : Nat := v.toNat

/-- The word that stands for `wrap32(n)`. -/
def wordOfInt (n : Int) : Word := BitVec.ofInt 32 n

end Sys2Proof
end

