-- ==== Sys2Proof/Syntax.lean ====
section
/-! DEFINITION. The instruction set as abstract syntax: tokens, register names, operand tokens and the
fourteen rows of `opcode_table.json`. -/

namespace Sys2Proof

/-- A token: a finite string of characters, possibly empty, compared exactly (R12). -/
abbrev Token := List Char

/-- The closed set of 25 registers (R21, R22). -/
inductive Reg where
  | zero
  | v0 | v1
  | a0 | a1 | a2 | a3
  | t0 | t1 | t2 | t3 | t4 | t5 | t6 | t7 | t8 | t9
  | s0 | s1 | s2 | s3 | s4 | s5 | s6 | s7
  deriving DecidableEq, Repr

/-- An operand token as the resolver of R110 sorts it. -/
inductive Operand where
  /-- A register name (R22). -/
  | reg (r : Reg)
  /-- A literal, by the word its integer becomes (R76, R77). -/
  | lit (v : Word)
  /-- A token that is neither; resolving it raises `MalformedOperand` (R110, R194). -/
  | malformed (t : Token)
  deriving DecidableEq, Repr

/-- The thirteen opcode tokens as names (R80). -/
inductive Opcode where
  | j | beq | add | addi | sub | sw | lw | sll | srl | mul | and | or | nop
  deriving DecidableEq, Repr

/-- An instruction: one constructor per row of `opcode_table.json` (R80, R82). The three operands of an
`F4` instruction are, in frame order, destination, source-1 and source-2 (R72). -/
inductive Instr where
  | j (d s1 s2 : Operand)
  | beq (d s1 s2 : Operand)
  | add (d s1 s2 : Operand)
  | addi (d s1 s2 : Operand)
  | sub (d s1 s2 : Operand)
  | sw (d s1 s2 : Operand)
  | lw (d s1 s2 : Operand)
  | sll (d s1 s2 : Operand)
  | srl (d s1 s2 : Operand)
  | mul (d s1 s2 : Operand)
  | and (d s1 s2 : Operand)
  | or (d s1 s2 : Operand)
  | nop
  /-- Any other token in opcode position (R82, R181). -/
  | unrecognised (t : Token)
  deriving DecidableEq, Repr

end Sys2Proof
end

