-- ==== Sys2Proof/Machine/State.lean ====
section
/-! DEFINITION. The state of the machine (`10_state.md` R20), its reset values (R47), and the reasons a
step can stop. -/

namespace Sys2Proof.Machine

/-- The register file: one word for each of the 24 writable registers (R21, R22, R25). `$zero` has no
storage: it reads as 0 and keeps nothing (R24). -/
structure RegFile where
  v0 : Word := 0
  v1 : Word := 0
  a0 : Word := 0
  a1 : Word := 0
  a2 : Word := 0
  a3 : Word := 0
  t0 : Word := 0
  t1 : Word := 0
  t2 : Word := 0
  t3 : Word := 0
  t4 : Word := 0
  t5 : Word := 0
  t6 : Word := 0
  t7 : Word := 0
  t8 : Word := 0
  t9 : Word := 0
  s0 : Word := 0
  s1 : Word := 0
  s2 : Word := 0
  s3 : Word := 0
  s4 : Word := 0
  s5 : Word := 0
  s6 : Word := 0
  s7 : Word := 0
  deriving DecidableEq, Repr

/-- The data memory (R37, R50, R52): words by word index, there being no byte view. Only the words that
differ from `unlistedWord` are listed, by rising index. -/
structure Memory where
  cells : List (Nat × Word)
  deriving DecidableEq, Repr

/-- What a word not listed reads as: every word is 0 after reset (R38). -/
def unlistedWord : Word := 0

/-- The canonical form: indices inside the memory and strictly rising, no listed word equal to
`unlistedWord`. Equal memories are then equal lists. -/
abbrev Memory.wf (m : Memory) : Prop :=
  m.cells.Pairwise (fun a b => a.1 < b.1) ∧
    ∀ c ∈ m.cells, c.1 < Config.memWords ∧ c.2 ≠ unlistedWord

/-- The operation classes of the ALU (R40, R104, R114). -/
inductive AluClass where
  /-- Class 0: no ALU operation, no memory step, no write-back. -/
  | noOperation
  | jump | branch | sum | difference | store | load
  | shiftLeft | shiftRight | product | conjunction | disjunction
  deriving DecidableEq, Repr

/-- The class number the trace port shows (R104). -/
def AluClass.code : AluClass → Nat
  | .noOperation => 0
  | .jump => 1
  | .branch => 2
  | .sum => 3
  | .difference => 4
  | .store => 5
  | .load => 6
  | .shiftLeft => 7
  | .shiftRight => 8
  | .product => 9
  | .conjunction => 10
  | .disjunction => 11

/-- The control signals of the instruction last executed (R40): `ctl.class`, `ctl.mw`, `ctl.mr`. The store
index `ctl.idx` is no state (R41, C9). -/
structure Control where
  aluClass : AluClass
  memWrite : Bool
  memRead : Bool
  deriving DecidableEq, Repr

/-- The triple as the numbers of R104. -/
def Control.triple (c : Control) : Nat × Nat × Nat :=
  (c.aluClass.code, c.memWrite.toNat, c.memRead.toNat)

/-- The fatal faults (R191, R199). A step that meets one takes it: the run status records it and nothing
else changes (`State.raise`). A step of a machine that has faulted answers the recorded one as its
outcome. Each stop is safe: no further state follows. -/
inductive Fault where
  /-- `PcOutOfRange(pc)` (R197), raised by the fetch unit when `pc` is negative. Safe. -/
  | pcOutOfRange (pc : Int)
  /-- `TruncatedFrame(P)` (R196), raised by the fetch unit for an `F4` opcode token whose operand tokens
  reach past the end of the stream. Safe. -/
  | truncatedFrame (pc : Int)
  /-- `MalformedOperand(tok, index)` (R194), raised by the operand resolver; `index` is the token's index
  in the stream. Safe. -/
  | malformedOperand (token : Token) (index : Int)
  /-- `OutOfRangeAddress(idx)` (R195), raised by the load/store unit in a `lw` or `sw`. Safe. -/
  | outOfRangeAddress (idx : Int)
  deriving DecidableEq, Repr

/-- The fault numbers of R199; nothing in the machine reads them. -/
def Fault.code : Fault → Nat
  | .pcOutOfRange _ => 1
  | .truncatedFrame _ => 2
  | .malformedOperand _ _ => 3
  | .outOfRangeAddress _ => 4

/-- The reasons for a refusal. -/
inductive Refusal where
  /-- An instruction without a meaning, by its mnemonic. Raised by no arm: all fourteen rows have their
  meaning. Safe. -/
  | notModelled (mnemonic : String)
  deriving DecidableEq, Repr

/-- The run status (R45, R192). -/
inductive Status where
  | running
  | halted
  | faulted (f : Fault)
  deriving DecidableEq, Repr

/-- What the trace port emits at once (R212): all registers, all of memory, the control triple of the
instruction just executed, and the terminal mark. -/
structure Snapshot where
  regs : RegFile
  mem : Memory
  ctl : Control
  terminal : Bool
  deriving DecidableEq, Repr

/-- The whole state (R20), with the two inputs that are constant in a run (R36, R9) and the log of what
the trace port has emitted in it. -/
structure State where
  /-- The program counter, a token index read as signed (R30). -/
  pc : Word
  /-- The register file (R21). -/
  regs : RegFile
  /-- The data memory (R37). -/
  mem : Memory
  /-- The control signals of the instruction last executed (R40). -/
  ctl : Control
  /-- The run status (R45). -/
  status : Status
  /-- The instruction token store: `Tok(i)` is the token at index `i`, `L` is its length (R36). -/
  program : List Token
  /-- The configuration input `TRACE_ENABLE` (R9). -/
  traceEnable : Bool
  /-- The snapshots emitted since reset, the newest first (R212). The model's own record of an output port:
  no step reads it. -/
  trace : List Snapshot
  deriving DecidableEq, Repr

/-- The control triple after reset, (0, 0, 0), and of an unrecognised opcode (R41, R104). -/
def Control.none : Control := ⟨.noOperation, false, false⟩

/-- The state a reset leaves, with the token store and `TRACE_ENABLE` as the host set them (R47, R220). -/
def State.resetWith (program : List Token) (traceEnable : Bool) : State where
  pc := 0
  regs := {}
  mem := ⟨[]⟩
  ctl := Control.none
  status := .running
  program := program
  traceEnable := traceEnable
  trace := []

/-- The machine right after reset, before the host has loaded a stream (R47): the token store is empty,
which is legal (R36, D25), and tracing is off (DESIGN CHOICE, log entry 4). -/
def State.reset : State := State.resetWith [] false

end Sys2Proof.Machine
end

