-- ==== Sys2Proof/Machine/Flags.lean ====
section
/-! DEFINITION. The machine has no condition flags (`10_state.md` R42). The only flags the source names are
the memory-write and memory-read control signals; this file is the decode table that sets them, with the
ALU class, afresh for every instruction (`40_engine.md` R104). -/

namespace Sys2Proof.Machine

/-- The control-signal triple of each instruction (R104; the memory-read signal of `sw` is 0, R160). -/
def Control.ofInstr : Instr → Control
  | .j _ _ _ => ⟨.jump, false, false⟩
  | .beq _ _ _ => ⟨.branch, false, false⟩
  | .add _ _ _ => ⟨.sum, false, false⟩
  | .addi _ _ _ => ⟨.sum, false, false⟩
  | .sub _ _ _ => ⟨.difference, false, false⟩
  | .sw _ _ _ => ⟨.store, true, false⟩
  | .lw _ _ _ => ⟨.load, false, true⟩
  | .sll _ _ _ => ⟨.shiftLeft, false, false⟩
  | .srl _ _ _ => ⟨.shiftRight, false, false⟩
  | .mul _ _ _ => ⟨.product, false, false⟩
  | .and _ _ _ => ⟨.conjunction, false, false⟩
  | .or _ _ _ => ⟨.disjunction, false, false⟩
  | .nop => ⟨.shiftLeft, false, false⟩
  | .unrecognised _ => Control.none

end Sys2Proof.Machine
end

