-- ==== Sys2Proof/Machine/Ops.lean ====
section
/-! DEFINITION. The named operations over registers, data memory, the trace port and the run status. -/

namespace Sys2Proof.Machine

/-! ### Registers -/

/-- `x[name]` (R24): the word last written, 0 for `$zero`. -/
def RegFile.read (f : RegFile) : Reg → Word
  | .zero => 0
  | .v0 => f.v0 | .v1 => f.v1
  | .a0 => f.a0 | .a1 => f.a1 | .a2 => f.a2 | .a3 => f.a3
  | .t0 => f.t0 | .t1 => f.t1 | .t2 => f.t2 | .t3 => f.t3 | .t4 => f.t4
  | .t5 => f.t5 | .t6 => f.t6 | .t7 => f.t7 | .t8 => f.t8 | .t9 => f.t9
  | .s0 => f.s0 | .s1 => f.s1 | .s2 => f.s2 | .s3 => f.s3
  | .s4 => f.s4 | .s5 => f.s5 | .s6 => f.s6 | .s7 => f.s7

/-- `x[name] <- v` for a register name (R25, R124): a write to `$zero` is discarded. -/
def RegFile.write (f : RegFile) (r : Reg) (v : Word) : RegFile :=
  match r with
  | .zero => f
  | .v0 => { f with v0 := v }
  | .v1 => { f with v1 := v }
  | .a0 => { f with a0 := v }
  | .a1 => { f with a1 := v }
  | .a2 => { f with a2 := v }
  | .a3 => { f with a3 := v }
  | .t0 => { f with t0 := v }
  | .t1 => { f with t1 := v }
  | .t2 => { f with t2 := v }
  | .t3 => { f with t3 := v }
  | .t4 => { f with t4 := v }
  | .t5 => { f with t5 := v }
  | .t6 => { f with t6 := v }
  | .t7 => { f with t7 := v }
  | .t8 => { f with t8 := v }
  | .t9 => { f with t9 := v }
  | .s0 => { f with s0 := v }
  | .s1 => { f with s1 := v }
  | .s2 => { f with s2 := v }
  | .s3 => { f with s3 := v }
  | .s4 => { f with s4 := v }
  | .s5 => { f with s5 := v }
  | .s6 => { f with s6 := v }
  | .s7 => { f with s7 := v }

/-- The write-back port (R124): `dest` is the destination token of the instruction, or none for `NOREG`;
`value` is none where there is no value (classes 1 and 2, and a store). Only a writable register name
lets anything be written; no destination is ever an error. -/
def writeBack (dest : Option Operand) (value : Option Word) (f : RegFile) : RegFile :=
  match dest, value with
  | some (.reg r), some v => f.write r v
  | some (.lit _), _ => f
  | some (.malformed _), _ => f
  | some (.reg _), none => f
  | none, _ => f

/-- The value of a register in a state. -/
def State.readReg (s : State) (r : Reg) : Word := s.regs.read r

/-! ### Instruction token store -/

/-- The instruction store port (R15, R36): `Tok(i)` when `0 <= i < L`. -/
def State.tok (s : State) (i : Int) : Option Token := if 0 ≤ i then s.program[i.toNat]? else none

/-! ### Data memory -/

/-- The word at an index of a cell list. -/
def cellsRead : List (Nat × Word) → Nat → Word
  | [], _ => unlistedWord
  | (a, v) :: rest, i => if a = i then v else cellsRead rest i

/-- A cell in front of a list, left out when it holds what an unlisted index reads as. -/
def consCell (i : Nat) (v : Word) (rest : List (Nat × Word)) : List (Nat × Word) :=
  if v = unlistedWord then rest else (i, v) :: rest

/-- The word at an index replaced, in canonical form. -/
def cellsWrite : List (Nat × Word) → Nat → Word → List (Nat × Word)
  | [], i, v => consCell i v []
  | (a, w) :: rest, i, v =>
    if i < a then consCell i v ((a, w) :: rest)
    else if i = a then consCell i v rest
    else (a, w) :: cellsWrite rest i v

/-- The word at a word index (R56). -/
def Memory.word (m : Memory) (i : Nat) : Word := cellsRead m.cells i

/-- The word of a state's data memory at a word index. -/
def State.word (s : State) (i : Nat) : Word := s.mem.word i

/-- Whether a computed index names a word: `0 <= idx <= MEM_WORDS - 1`, read as signed (R55). -/
def inMemory (idx : Word) : Bool :=
  decide (0 ≤ idx.toInt) && decide (idx.toInt < (Config.memWords : Int))

/-- `MemRead(idx, 1)` (R55). -/
def memRead (m : Memory) (idx : Word) : Except Fault Word :=
  if inMemory idx then .ok (m.word idx.toNat) else .error (.outOfRangeAddress idx.toInt)

/-- `MemWrite(idx, 1, v)` (R55). -/
def memWrite (m : Memory) (idx : Word) (v : Word) : Except Fault Memory :=
  if inMemory idx then .ok ⟨cellsWrite m.cells idx.toNat v⟩
  else .error (.outOfRangeAddress idx.toInt)

/-! ### Trace port (R212) -/

/-- The snapshot of a state. -/
def State.snapshot (s : State) (terminal : Bool) : Snapshot := ⟨s.regs, s.mem, s.ctl, terminal⟩

/-- The snapshot at the end of a completed step, if tracing is enabled (R212 (a)). -/
def State.emitStep (s : State) : State :=
  if s.traceEnable then { s with trace := s.snapshot false :: s.trace } else s

/-- The terminal snapshot, whatever `TRACE_ENABLE` is (R212 (b)). -/
def State.emitTerminal (s : State) : State := { s with trace := s.snapshot true :: s.trace }

/-! ### Ends of a run -/

/-- TAKING A FATAL FAULT (R191, R193, R204): the run status records kind and information; no state is
saved, no mode changes, no control is transferred, `pc` keeps the index of the faulting instruction,
registers and data memory are as the previous instruction left them, no snapshot is emitted. The control
triple is left as it was, one of the two choices R136 allows. -/
def State.raise (f : Fault) (s : State) : State := { s with status := .faulted f }

/-- There is no return from a fault (R205): reset is the only way on, also out of `halted` and also for a
machine that is running (R221). It keeps the token store and `TRACE_ENABLE` and nothing else (R220). -/
def State.hostReset (s : State) : State := State.resetWith s.program s.traceEnable

/-- What the host does before a run (R222): load the stream, set `TRACE_ENABLE`, reset. -/
def State.boot (program : List Token) (traceEnable : Bool) : State :=
  State.resetWith program traceEnable

/-- Halting (R132): the status becomes `halted`, the terminal snapshot is emitted, all else stays. -/
def State.halt (s : State) : State := { s.emitTerminal with status := .halted }

/-- The read-out interface (R15, R65): registers and data memory, when the machine is halted or faulted. -/
def State.readOut (s : State) : Option (RegFile × Memory) :=
  match s.status with
  | .running => none
  | .halted => some (s.regs, s.mem)
  | .faulted _ => some (s.regs, s.mem)

/-- The end of a step that completes (R128, R212): the control triple of the instruction, the uniform
`+4` on the effective pc, then the trace snapshot. -/
def State.complete (c : Control) (epc : Word) (s : State) : State :=
  ({ s with ctl := c, pc := epc + 4 } : State).emitStep

end Sys2Proof.Machine
end

