-- ==== Sys2Proof/Machine/Operands.lean ====
section
/-! DEFINITION. The operand resolver (`40_engine.md` R108, R110) and the shift amount (R170). -/

namespace Sys2Proof.Machine

/-- `resolve(tok)` for the operand in slot 1, 2 or 3 of the frame at `pc` (R110): a register's value, a
literal's value, or `MalformedOperand` with the token and its index in the stream. -/
def resolve (s : State) (slot : Nat) : Operand → Except Fault Word
  | .reg r => .ok (s.readReg r)
  | .lit v => .ok v
  | .malformed t => .error (.malformedOperand t (s.pc.toInt + slot))

/-- The values `d`, `s1`, `s2` of R14. -/
structure OperandValues where
  d : Word
  s1 : Word
  s2 : Word
  deriving DecidableEq, Repr

/-- All three operands, used or not, in the order destination, source-1, source-2; the first malformed one
is reported (R108). -/
def resolveAll (s : State) (d s1 s2 : Operand) : Except Fault OperandValues :=
  match resolve s 1 d with
  | .error f => .error f
  | .ok dv =>
    match resolve s 2 s1 with
    | .error f => .error f
    | .ok v1 =>
      match resolve s 3 s2 with
      | .error f => .error f
      | .ok v2 => .ok ⟨dv, v1, v2⟩

/-- `SHIFT_AMOUNT` (R170, D5): `s2 mod 32`, the low five bits of the word. -/
def shiftAmount (s2 : Word) : Nat := s2.toNat % 32

end Sys2Proof.Machine
end

