-- ==== Sys2Proof/Machine/Engine.lean ====
section
/-! DEFINITION. The mechanism every instruction shares (`40_engine.md`): the ALU, the memory step, and the
step of a four-token frame as R136 writes it. -/

namespace Sys2Proof.Machine

/-- What the ALU answers (R114): a result, a memory index, each where the class has one, and the effective
pc. -/
structure AluOutput where
  result : Option Word
  index : Option Word
  epc : Word
  deriving DecidableEq, Repr

/-- A result and nothing else: the pc stays at `p`. -/
def aluResult (v p : Word) : AluOutput := ⟨some v, none, p⟩

/-- The ALU (R114), a function of the class, the three operand values and the counter `p`. It is never
invoked with class 0. -/
def alu (c : AluClass) (d s1 s2 p : Word) : AluOutput :=
  match c with
  | .noOperation => ⟨none, none, p⟩
  | .jump => ⟨none, none, d - 4⟩
  | .branch => ⟨none, none, if d = s1 then p + s2 else p⟩
  | .sum => aluResult (s1 + s2) p
  | .difference => aluResult (s1 - s2) p
  | .store => ⟨some d, some (s1 + s2), p⟩
  | .load => aluResult (s1 + s2) p
  | .shiftLeft => aluResult (s1 <<< shiftAmount s2) p
  | .shiftRight => aluResult (s1 >>> shiftAmount s2) p
  | .product => aluResult (s1 * s2) p
  | .conjunction => aluResult (s1 &&& s2) p
  | .disjunction => aluResult (s1 ||| s2) p

/-- The memory step (R120): the memory after it and the value for write-back. The write flag is tested
first. -/
def memoryStep (c : Control) (out : AluOutput) (m : Memory) : Except Fault (Memory × Option Word) :=
  if c.memWrite then
    match out.index, out.result with
    | some idx, some v =>
      match memWrite m idx v with
      | .ok m' => .ok (m', none)
      | .error f => .error f
    | _, _ => .ok (m, none)
  else if c.memRead then
    match out.result with
    | some idx =>
      match memRead m idx with
      | .ok v => .ok (m, some v)
      | .error f => .error f
    | none => .ok (m, none)
  else .ok (m, out.result)

/-- The step of an `F4` instruction after its frame is fetched (R100, R136): resolve all three operands,
ALU, memory step, write-back to `dest` (none is `NOREG`), pc advance. A fault keeps nothing of the step. -/
def executeFrame (c : Control) (dest : Option Operand) (d s1 s2 : Operand) (s : State) :
    Host.Outcome State Fault Refusal :=
  match resolveAll s d s1 s2 with
  | .error f => .next (s.raise f)
  | .ok v =>
    match memoryStep c (alu c.aluClass v.d v.s1 v.s2 s.pc) s.mem with
    | .error f => .next (s.raise f)
    | .ok (m, value) =>
      .next (State.complete c (alu c.aluClass v.d v.s1 v.s2 s.pc).epc
        { s with mem := m, regs := writeBack dest value s.regs })

end Sys2Proof.Machine
end

