-- ==== Sys2Proof/Machine/Arithmetic.lean ====
section
/-! DEFINITION. `add`, `addi`, `sub` and `mul` (`42_arithmetic.md`). -/

namespace Sys2Proof.Machine

/-- `add` (R150): the destination receives `wrap32(s1 + s2)`. -/
def execAdd (d s1 s2 : Operand) (s : State) : Host.Outcome State Fault Refusal :=
  executeFrame (Control.ofInstr (.add d s1 s2)) (some d) d s1 s2 s

/-- `addi` (R151): the same operation under another opcode token. -/
def execAddi (d s1 s2 : Operand) (s : State) : Host.Outcome State Fault Refusal :=
  executeFrame (Control.ofInstr (.addi d s1 s2)) (some d) d s1 s2 s

/-- `sub` (R152): the destination receives `wrap32(s1 - s2)`. -/
def execSub (d s1 s2 : Operand) (s : State) : Host.Outcome State Fault Refusal :=
  executeFrame (Control.ofInstr (.sub d s1 s2)) (some d) d s1 s2 s

/-- `mul` (R153): the destination receives the low 32 bits of `s1 * s2`. -/
def execMul (d s1 s2 : Operand) (s : State) : Host.Outcome State Fault Refusal :=
  executeFrame (Control.ofInstr (.mul d s1 s2)) (some d) d s1 s2 s

end Sys2Proof.Machine
end

