-- ==== Sys2Proof/Machine/ControlTransfer.lean ====
section
/-! DEFINITION. `j` and `beq` (`41_control_transfer.md`). Both have the destination `NOREG` (R126). -/

namespace Sys2Proof.Machine

/-- `j` (R140): the next pc is the value of the first operand. -/
def execJ (d s1 s2 : Operand) (s : State) : Host.Outcome State Fault Refusal :=
  executeFrame (Control.ofInstr (.j d s1 s2)) none d s1 s2 s

/-- `beq` (R141): the next pc is `P + s2 + 4` if the first two values are equal, else `P + 4`. -/
def execBeq (d s1 s2 : Operand) (s : State) : Host.Outcome State Fault Refusal :=
  executeFrame (Control.ofInstr (.beq d s1 s2)) none d s1 s2 s

end Sys2Proof.Machine
end

