-- ==== Sys2Proof/Machine/LoadStore.lean ====
section
/-! DEFINITION. `sw` and `lw` (`43_load_store.md`). -/

namespace Sys2Proof.Machine

/-- `sw` (R160): the value of the first operand is stored at the word index `wrap32(s1 + s2)`; the
destination is `NOREG` (R120, R126). -/
def execSw (d s1 s2 : Operand) (s : State) : Host.Outcome State Fault Refusal :=
  executeFrame (Control.ofInstr (.sw d s1 s2)) none d s1 s2 s

/-- `lw` (R161): the destination receives the word at the word index `wrap32(s1 + s2)`. -/
def execLw (d s1 s2 : Operand) (s : State) : Host.Outcome State Fault Refusal :=
  executeFrame (Control.ofInstr (.lw d s1 s2)) (some d) d s1 s2 s

end Sys2Proof.Machine
end

