-- ==== Sys2Proof/Machine/NopUnknown.lean ====
section
/-! DEFINITION. `nop` and the unrecognised opcode (`45_nop_unknown.md`). -/

namespace Sys2Proof.Machine

/-- `nop` (R180, R112): the ALU shifts 0 left by 0, the result goes to `NOREG`, and the effective pc
`P - 3` turns the uniform advance into one of 1 token. -/
def execNop (s : State) : Host.Outcome State Fault Refusal :=
  .next (State.complete (Control.ofInstr .nop) (s.pc - 3)
    { s with regs := writeBack none (alu .shiftLeft 0 0 0 s.pc).result s.regs })

/-- An unrecognised opcode (R181): no ALU operation, no memory step, no write-back; the pc advances by 4. -/
def execUnrecognised (t : Token) (s : State) : Host.Outcome State Fault Refusal :=
  .next (State.complete (Control.ofInstr (.unrecognised t)) s.pc s)

end Sys2Proof.Machine
end

