-- ==== Sys2Proof/Machine/ShiftLogic.lean ====
section
/-! DEFINITION. `sll`, `srl`, `and` and `or` (`44_shift_logic.md`). -/

namespace Sys2Proof.Machine

/-- `sll` (R171): the first source shifted left by the shift amount, zeros entering. -/
def execSll (d s1 s2 : Operand) (s : State) : Host.Outcome State Fault Refusal :=
  executeFrame (Control.ofInstr (.sll d s1 s2)) (some d) d s1 s2 s

/-- `srl` (R172): the first source shifted right by the shift amount, zeros entering. -/
def execSrl (d s1 s2 : Operand) (s : State) : Host.Outcome State Fault Refusal :=
  executeFrame (Control.ofInstr (.srl d s1 s2)) (some d) d s1 s2 s

/-- `and` (R173): the bitwise AND of the two sources. -/
def execAnd (d s1 s2 : Operand) (s : State) : Host.Outcome State Fault Refusal :=
  executeFrame (Control.ofInstr (.and d s1 s2)) (some d) d s1 s2 s

/-- `or` (R174): the bitwise OR of the two sources. -/
def execOr (d s1 s2 : Operand) (s : State) : Host.Outcome State Fault Refusal :=
  executeFrame (Control.ofInstr (.or d s1 s2)) (some d) d s1 s2 s

end Sys2Proof.Machine
end

