-- ==== Sys2Proof/Machine/Dispatch.lean ====
section
/-! DEFINITION. The one dispatch from an instruction to its meaning. -/

namespace Sys2Proof.Machine

def exec (i : Instr) (s : State) : Host.Outcome State Fault Refusal :=
  match i with
  | .j d s1 s2 => Sys2Proof.Machine.execJ d s1 s2 s
  | .beq d s1 s2 => Sys2Proof.Machine.execBeq d s1 s2 s
  | .add d s1 s2 => Sys2Proof.Machine.execAdd d s1 s2 s
  | .addi d s1 s2 => Sys2Proof.Machine.execAddi d s1 s2 s
  | .sub d s1 s2 => Sys2Proof.Machine.execSub d s1 s2 s
  | .sw d s1 s2 => Sys2Proof.Machine.execSw d s1 s2 s
  | .lw d s1 s2 => Sys2Proof.Machine.execLw d s1 s2 s
  | .sll d s1 s2 => Sys2Proof.Machine.execSll d s1 s2 s
  | .srl d s1 s2 => Sys2Proof.Machine.execSrl d s1 s2 s
  | .mul d s1 s2 => Sys2Proof.Machine.execMul d s1 s2 s
  | .and d s1 s2 => Sys2Proof.Machine.execAnd d s1 s2 s
  | .or d s1 s2 => Sys2Proof.Machine.execOr d s1 s2 s
  | .nop => Sys2Proof.Machine.execNop s
  | .unrecognised t => Sys2Proof.Machine.execUnrecognised t s

end Sys2Proof.Machine
end

