-- ==== Sys2Proof/Decode.lean ====
section
/-! DEFINITION. Reading a token frame as an instruction (`30_encoding.md`), writing one as tokens, and
the byte layout of a frame by which the host names an instruction. -/

namespace Sys2Proof

/-! ### Register names (R22) -/

/-- `REG_NAMES`: the name token of each register. -/
def Reg.name : Reg → Token
  | .zero => ['$', 'z', 'e', 'r', 'o']
  | .v0 => ['$', 'v', '0'] | .v1 => ['$', 'v', '1']
  | .a0 => ['$', 'a', '0'] | .a1 => ['$', 'a', '1'] | .a2 => ['$', 'a', '2'] | .a3 => ['$', 'a', '3']
  | .t0 => ['$', 't', '0'] | .t1 => ['$', 't', '1'] | .t2 => ['$', 't', '2'] | .t3 => ['$', 't', '3']
  | .t4 => ['$', 't', '4'] | .t5 => ['$', 't', '5'] | .t6 => ['$', 't', '6'] | .t7 => ['$', 't', '7']
  | .t8 => ['$', 't', '8'] | .t9 => ['$', 't', '9']
  | .s0 => ['$', 's', '0'] | .s1 => ['$', 's', '1'] | .s2 => ['$', 's', '2'] | .s3 => ['$', 's', '3']
  | .s4 => ['$', 's', '4'] | .s5 => ['$', 's', '5'] | .s6 => ['$', 's', '6'] | .s7 => ['$', 's', '7']

/-- The 25 registers, in the order of R22. -/
def Reg.all : List Reg :=
  [.zero, .v0, .v1, .a0, .a1, .a2, .a3] ++
  [.t0, .t1, .t2, .t3, .t4, .t5, .t6, .t7, .t8, .t9] ++
  [.s0, .s1, .s2, .s3, .s4, .s5, .s6, .s7]

/-- The register a token names, if it names one (R23: exact comparison, no alias). -/
def Reg.ofToken (t : Token) : Option Reg := Reg.all.find? fun r => decide (r.name = t)

/-! ### Literals (R76, R77) -/

/-- The value of an ASCII decimal digit. -/
def digitValue (c : Char) : Option Nat :=
  if 48 ≤ c.toNat ∧ c.toNat ≤ 57 then some (c.toNat - 48) else none

/-- The number a run of decimal digits spells, read on from `acc`; none when a character is no digit. -/
def digitsValue (acc : Nat) : List Char → Option Nat
  | [] => some acc
  | c :: cs =>
    match digitValue c with
    | some d => digitsValue (10 * acc + d) cs
    | none => none

/-- One digit or more (R76: `-` alone and the empty token are no literals). -/
def unsignedLiteral : List Char → Option Nat
  | [] => none
  | c :: cs => digitsValue 0 (c :: cs)

/-- The word of an integer that fits one, and none of any other (R77). -/
def fittingWord (n : Int) : Option Word :=
  if -2147483648 ≤ n ∧ n ≤ 2147483647 then some (wordOfInt n) else none

/-- The word a literal token stands for: an optional `-`, then digits, in 32-bit signed range. -/
def literalValue : Token → Option Word
  | [] => none
  | c :: cs =>
    if c = '-' then
      match unsignedLiteral cs with
      | some n => fittingWord (-(n : Int))
      | none => none
    else if c = '+' ∧ Config.literalAcceptsPlus = true then
      match unsignedLiteral cs with
      | some n => fittingWord n
      | none => none
    else
      match unsignedLiteral (c :: cs) with
      | some n => fittingWord n
      | none => none

/-- An operand token sorted as R110 sorts it: the register names first, then the literals. -/
def Operand.ofToken (t : Token) : Operand :=
  match Reg.ofToken t with
  | some r => .reg r
  | none =>
    match literalValue t with
    | some v => .lit v
    | none => .malformed t

/-! ### The opcode map (R80) -/

/-- `OPCODE_TOKENS`: the token of each of the thirteen instructions. -/
def Opcode.token : Opcode → Token
  | .j => ['j']
  | .beq => ['b', 'e', 'q']
  | .add => ['a', 'd', 'd']
  | .addi => ['a', 'd', 'd', 'i']
  | .sub => ['s', 'u', 'b']
  | .sw => ['s', 'w']
  | .lw => ['l', 'w']
  | .sll => ['s', 'l', 'l']
  | .srl => ['s', 'r', 'l']
  | .mul => ['m', 'u', 'l']
  | .and => ['a', 'n', 'd']
  | .or => ['o', 'r']
  | .nop => ['n', 'o', 'p']

/-- The thirteen, in the order of R80. -/
def Opcode.all : List Opcode :=
  [.j, .beq, .add, .addi, .sub, .sw, .lw, .sll, .srl, .mul, .and, .or, .nop]

/-- The instruction a token in opcode position selects, by exact equality; none is "unrecognised" (R82). -/
def Opcode.ofToken (t : Token) : Option Opcode := Opcode.all.find? fun o => decide (o.token = t)

/-- The instruction of an opcode and its three operands; `nop` has none (R71). -/
def Opcode.instr (o : Opcode) (d s1 s2 : Operand) : Instr :=
  match o with
  | .j => .j d s1 s2
  | .beq => .beq d s1 s2
  | .add => .add d s1 s2
  | .addi => .addi d s1 s2
  | .sub => .sub d s1 s2
  | .sw => .sw d s1 s2
  | .lw => .lw d s1 s2
  | .sll => .sll d s1 s2
  | .srl => .srl d s1 s2
  | .mul => .mul d s1 s2
  | .and => .and d s1 s2
  | .or => .or d s1 s2
  | .nop => .nop

/-- What the decoder answers. -/
inductive Decoded where
  /-- An instruction. -/
  | instr (i : Instr)
  /-- The token of an `F4` opcode with fewer than three tokens after it (R63, R106). -/
  | truncated
  /-- There is no token to decode: the index is at or past the end of the stream (R132). -/
  | noToken
  deriving DecidableEq, Repr

/-- The instruction that begins the token list (R70 to R73, R85): the opcode token alone tells the frame,
`nop` and an unrecognised token read nothing more, every other opcode reads three operand tokens. -/
def decode : List Token → Decoded
  | [] => .noToken
  | op :: rest =>
    match Opcode.ofToken op with
    | none => .instr (.unrecognised op)
    | some .nop => .instr .nop
    | some o =>
      match rest with
      | d :: s1 :: s2 :: _ =>
        .instr (o.instr (Operand.ofToken d) (Operand.ofToken s1) (Operand.ofToken s2))
      | _ => .truncated

/-! ### The encoder -/

/-- The decimal digits of `n` in front of `acc`, at most `fuel` of them. -/
def decimalDigits : Nat → Nat → List Char → List Char
  | 0, _, acc => acc
  | fuel + 1, n, acc =>
    if n < 10 then Char.ofNat (48 + n) :: acc
    else decimalDigits fuel (n / 10) (Char.ofNat (48 + n % 10) :: acc)

/-- The shortest literal that spells a word read as signed: at most ten digits, `-` in front of a
negative one (R76). -/
def literalToken (v : Word) : Token :=
  if v.toInt < 0 then '-' :: decimalDigits 10 v.toInt.natAbs []
  else decimalDigits 10 v.toInt.natAbs []

/-- An operand as a token. -/
def Operand.token : Operand → Token
  | .reg r => r.name
  | .lit v => literalToken v
  | .malformed t => t

/-- The four tokens of an `F4` frame (R72). -/
def encodeFrame (o : Opcode) (d s1 s2 : Operand) : List Token :=
  [o.token, d.token, s1.token, s2.token]

/-- An instruction as the tokens of its frame. An unrecognised opcode is its one token: it reads no
operand token (R181). -/
def encode : Instr → List Token
  | .j d s1 s2 => encodeFrame .j d s1 s2
  | .beq d s1 s2 => encodeFrame .beq d s1 s2
  | .add d s1 s2 => encodeFrame .add d s1 s2
  | .addi d s1 s2 => encodeFrame .addi d s1 s2
  | .sub d s1 s2 => encodeFrame .sub d s1 s2
  | .sw d s1 s2 => encodeFrame .sw d s1 s2
  | .lw d s1 s2 => encodeFrame .lw d s1 s2
  | .sll d s1 s2 => encodeFrame .sll d s1 s2
  | .srl d s1 s2 => encodeFrame .srl d s1 s2
  | .mul d s1 s2 => encodeFrame .mul d s1 s2
  | .and d s1 s2 => encodeFrame .and d s1 s2
  | .or d s1 s2 => encodeFrame .or d s1 s2
  | .nop => [Opcode.nop.token]
  | .unrecognised t => [t]

/-! ### Frames as numbers, for the host only

The hardware has no binary encoding (R70). DESIGN CHOICE (log entry 9): where the host names an instruction
by a number, the number's bytes, least significant first, are the characters of the frame's tokens, one
space (20H) between two tokens and a zero byte at the end; an operand token the number does not spell
is the literal `0`. -/

/-- The bytes of the low `nbits` bits of `w`, the least significant first. -/
def tableBytes (nbits w : Nat) : List Nat :=
  (List.range ((nbits + 7) / 8)).map fun k => w / 256 ^ k % 256

/-- A run of characters cut at its spaces. -/
def splitAtSpaces : List Char → List Token
  | [] => [[]]
  | c :: cs =>
    if c = ' ' then [] :: splitAtSpaces cs
    else
      match splitAtSpaces cs with
      | t :: ts => (c :: t) :: ts
      | [] => [[c]]

/-- Exactly one frame: the operand tokens of an `F4` opcode filled up with the literal `0`, and no token
after any other. -/
def fillFrame : List Token → List Token
  | [] => [[]]
  | op :: rest =>
    match Opcode.ofToken op with
    | none => [op]
    | some .nop => [op]
    | some _ => op :: (rest ++ [['0'], ['0'], ['0']]).take 3

/-- The frame a number stands for. -/
def tableFrame (nbits w : Nat) : List Token :=
  fillFrame (splitAtSpaces (((tableBytes nbits w).takeWhile fun b => decide (b ≠ 0)).map Char.ofNat))

/-- The instruction of a frame given as a number of `nbits` bits. -/
def decodeTableWord (nbits w : Nat) : Option Instr :=
  match decode (tableFrame nbits w) with
  | .instr i => some i
  | .truncated => none
  | .noToken => none

end Sys2Proof
end

