-- ==== Sys2Proof/Machine/Fetch.lean ====
section
/-! DEFINITION. The fetch unit (`40_engine.md` R101, R106), and storing one frame where it fetches. -/

namespace Sys2Proof.Machine

/-- What the fetch unit finds. -/
inductive Fetched where
  /-- `pc >= L`: the machine halts (R132). -/
  | pastEnd
  /-- A fatal fault of the fetch unit (R196, R197). -/
  | fault (f : Fault)
  /-- The frame of an instruction. -/
  | instr (i : Instr)
  deriving DecidableEq, Repr

/-- The fetch test, then the opcode token and the operand tokens its opcode asks for (R101, R106). No token
is left at `pc` exactly when `pc >= L`. -/
def fetch (s : State) : Fetched :=
  if s.pc.toInt < 0 then .fault (.pcOutOfRange s.pc.toInt)
  else
    match decode (s.program.drop s.pc.toInt.toNat) with
    | .noToken => .pastEnd
    | .truncated => .fault (.truncatedFrame s.pc.toInt)
    | .instr i => .instr i

/-- A token stream with a frame put at index `p`, over what stood there; indices before `p` that the stream
does not reach hold the empty token. -/
def putFrame (program : List Token) (p : Nat) (frame : List Token) : List Token :=
  (program ++ List.replicate (p - program.length) []).take p ++ frame ++
    program.drop (p + frame.length)

/-- The index at which a frame can be fetched: `pc`, or 0 where no token can stand at `pc`. -/
def fetchIndex (s : State) : Nat :=
  if 0 ≤ s.pc.toInt ∧ s.pc.toInt + 4 ≤ (Config.maxStreamLength : Int) then s.pc.toInt.toNat else 0

/-- A running machine whose next fetch finds the frame. -/
def placeFrame (s : State) (frame : List Token) : State :=
  { s with
    pc := BitVec.ofNat 32 (fetchIndex s)
    status := .running
    program := putFrame s.program (fetchIndex s) frame }

end Sys2Proof.Machine
end

