-- ==== Sys2Proof/Machine/Step.lean ====
section
/-! DEFINITION. One step of the machine (`40_engine.md` R100, R136). -/

namespace Sys2Proof.Machine

/-- One step: one whole instruction, or the halt, or a fatal fault of the fetch unit. `halted` and
`faulted` are absorbing (R45): a halted machine stays as it is, and a faulted one answers the fault its
run status records. -/
def step (s : State) : Host.Outcome State Fault Refusal :=
  match s.status with
  | .halted => .next s
  | .faulted f => .fault f
  | .running =>
    match fetch s with
    | .pastEnd => .next s.halt
    | .fault f => .next (s.raise f)
    | .instr i => exec i s

/-- The machine with the frame that the number `w` of `nbits` bits stands for (`tableFrame`) where the next
step fetches; it stands for the host's load of a token stream (log entry 9). -/
def State.withFetchWord (s : State) (nbits w : Nat) : State := placeFrame s (tableFrame nbits w)

end Sys2Proof.Machine
end

