-- ==== Sys2Proof/WellFormed.lean ====
section
/-! DEFINITION. Which terms of `Instr` stand for a frame of tokens: an operand called malformed must be a
token the resolver refuses, an opcode called unrecognised must be none of the thirteen. -/

namespace Sys2Proof

/-- A malformed operand is a token that is neither register name nor literal (R110). -/
def Operand.wf : Operand → Bool
  | .reg _ => true
  | .lit _ => true
  | .malformed t => decide (Operand.ofToken t = .malformed t)

/-- An `F4` frame is well-formed when its three operands are. -/
def operandsWf (d s1 s2 : Operand) : Bool := d.wf && s1.wf && s2.wf

/-- An instruction is well-formed when its operands are and when an opcode called unrecognised is not in
`OPCODE_TOKENS` (R82). -/
def Instr.wf : Instr → Bool
  | .j d s1 s2 => operandsWf d s1 s2
  | .beq d s1 s2 => operandsWf d s1 s2
  | .add d s1 s2 => operandsWf d s1 s2
  | .addi d s1 s2 => operandsWf d s1 s2
  | .sub d s1 s2 => operandsWf d s1 s2
  | .sw d s1 s2 => operandsWf d s1 s2
  | .lw d s1 s2 => operandsWf d s1 s2
  | .sll d s1 s2 => operandsWf d s1 s2
  | .srl d s1 s2 => operandsWf d s1 s2
  | .mul d s1 s2 => operandsWf d s1 s2
  | .and d s1 s2 => operandsWf d s1 s2
  | .or d s1 s2 => operandsWf d s1 s2
  | .nop => true
  | .unrecognised t => decide (Opcode.ofToken t = none)

end Sys2Proof
end

