-- ==== Sys2Proof/Safety.lean ====
section
/-! DEFINITION. The terms the statements are written in: the invariant of a run, the values of operands as
integers, and what it says that an instruction completes. -/

namespace Sys2Proof.Machine

/-! ### Literals, read from R76 and R77 -/

/-- One or more ASCII decimal digits. -/
def IsDigits (cs : List Char) : Prop := cs ≠ [] ∧ ∀ c ∈ cs, 48 ≤ c.toNat ∧ c.toNat ≤ 57

/-- The number decimal digits spell. -/
def decimalNumber (cs : List Char) : Int := cs.foldl (fun n c => 10 * n + ((c.toNat : Int) - 48)) 0

/-- An optional minus sign, then digits, spelling `n`. -/
def Spells (t : Token) (n : Int) : Prop :=
  (IsDigits t ∧ n = decimalNumber t) ∨ ∃ cs, t = '-' :: cs ∧ IsDigits cs ∧ n = -decimalNumber cs

/-- A literal of value `n`: it spells `n`, and `n` fits a signed 32-bit word. -/
def IsLiteral (t : Token) (n : Int) : Prop := Spells t n ∧ -2147483648 ≤ n ∧ n ≤ 2147483647

/-! ### Operands -/

/-- An operand the resolver gives a value (R110). -/
def resolvable : Operand → Bool
  | .reg _ => true
  | .lit _ => true
  | .malformed _ => false

/-- All three operands of a frame resolve. -/
def frameResolves (d s1 s2 : Operand) : Prop :=
  resolvable d = true ∧ resolvable s1 = true ∧ resolvable s2 = true

/-- The signed value of an operand that resolves: the register's, or the literal's (R14, R110). -/
def operandInt (s : State) : Operand → Int
  | .reg r => (s.readReg r).toInt
  | .lit v => v.toInt
  | .malformed _ => 0

/-! ### Completion and frames -/

/-- All registers as they are, read as signed. -/
def regsOf (s : State) (r : Reg) : Int := (s.readReg r).toInt

/-- All registers after a write of `n` to the destination operand `d`: only a register name other than
`$zero` lets anything be written (R124). -/
def regsWritten (s : State) (d : Operand) (n : Int) (r : Reg) : Int :=
  if d = .reg r ∧ r ≠ .zero then n else regsOf s r

/-- All of data memory as it is, read as signed. -/
def wordsOf (s : State) (i : Nat) : Int := (s.word i).toInt

/-- All of data memory after a store of `n` at the word index `idx`. -/
def wordsStored (s : State) (idx n : Int) (i : Nat) : Int :=
  if (i : Int) = idx then n else wordsOf s i

/-- The instruction `i` completes in `s`: `exec` answers a next state with the control triple, the pc, the
registers and the data memory given, the run status, the token store and `TRACE_ENABLE` as they were, and
one more snapshot on the trace port exactly if tracing is enabled (R212). Every field is fixed by it. -/
def CompletesWith (i : Instr) (s : State) (triple : Nat × Nat × Nat) (pc : Int) (regs : Reg → Int)
    (words : Nat → Int) : Prop :=
  ∃ t, exec i s = .next t ∧ t.ctl.triple = triple ∧ t.pc.toInt = pc ∧
    (∀ r, (t.readReg r).toInt = regs r) ∧ (∀ k, (t.word k).toInt = words k) ∧
    t.status = s.status ∧ t.program = s.program ∧ t.traceEnable = s.traceEnable ∧
    t.trace = (if s.traceEnable then ⟨t.regs, t.mem, t.ctl, false⟩ :: s.trace else s.trace)

/-- The outcome `o` from `s` is the fatal fault `f`, taken (R191, R193): the run status records it, and pc,
registers, data memory, inputs and trace are as in `s`. The control triple is left open, as R136 leaves it. -/
def TakesFault (o : Host.Outcome State Fault Refusal) (s : State) (f : Fault) : Prop :=
  ∃ c, o = .next { s with ctl := c, status := .faulted f }

/-- How the step of a running machine reaches the instruction of an `F4` opcode token (R106): a frame cut
short by the end of the stream is `TruncatedFrame(P)`, a whole one is executed with its three operand
tokens. -/
def FetchesFrame (op : Token) (mk : Operand → Operand → Operand → Instr) : Prop :=
  ∀ s : State, s.status = .running → s.tok s.pc.toInt = some op →
    ((s.program.length : Int) ≤ s.pc.toInt + 3 →
      TakesFault (step s) s (.truncatedFrame s.pc.toInt)) ∧
    ∀ t1 t2 t3, s.tok (s.pc.toInt + 1) = some t1 → s.tok (s.pc.toInt + 2) = some t2 →
      s.tok (s.pc.toInt + 3) = some t3 →
      step s = exec (mk (Operand.ofToken t1) (Operand.ofToken t2) (Operand.ofToken t3)) s

/-- An `F4` instruction whose first malformed operand stands in slot 1, 2 or 3 faults with that token and
its index, used or not (R108, R193, R194). -/
def FaultsOnMalformed (mk : Operand → Operand → Operand → Instr) : Prop :=
  ∀ (s : State) (t : Token) (d s1 s2 : Operand),
    (d = .malformed t →
      TakesFault (exec (mk d s1 s2) s) s (.malformedOperand t (s.pc.toInt + 1))) ∧
    (resolvable d = true → s1 = .malformed t →
      TakesFault (exec (mk d s1 s2) s) s (.malformedOperand t (s.pc.toInt + 2))) ∧
    (resolvable d = true → resolvable s1 = true → s2 = .malformed t →
      TakesFault (exec (mk d s1 s2) s) s (.malformedOperand t (s.pc.toInt + 3)))

/-- `t` differs from `s` in nothing but the run status and, which R136 leaves open, the control triple. -/
def OnlyStatusChanged (s t : State) : Prop := t = { s with ctl := t.ctl, status := t.status }

/-- An instruction that is one of the nine that write a register (R25), with the destination `d`. -/
def WritesRegister (i : Instr) (d : Operand) : Prop :=
  ∃ s1 s2, i = .add d s1 s2 ∨ i = .addi d s1 s2 ∨ i = .sub d s1 s2 ∨ i = .mul d s1 s2 ∨
    i = .lw d s1 s2 ∨ i = .sll d s1 s2 ∨ i = .srl d s1 s2 ∨ i = .and d s1 s2 ∨ i = .or d s1 s2

/-- The decode table of R104: the thirteen opcode tokens with their triples. -/
def decodeTable : List (Token × Nat × Nat × Nat) :=
  [(['j'], 1, 0, 0), (['b', 'e', 'q'], 2, 0, 0), (['a', 'd', 'd'], 3, 0, 0)] ++
  [(['a', 'd', 'd', 'i'], 3, 0, 0), (['s', 'u', 'b'], 4, 0, 0), (['s', 'w'], 5, 1, 0)] ++
  [(['l', 'w'], 6, 0, 1), (['s', 'l', 'l'], 7, 0, 0), (['s', 'r', 'l'], 8, 0, 0)] ++
  [(['m', 'u', 'l'], 9, 0, 0), (['a', 'n', 'd'], 10, 0, 0), (['o', 'r'], 11, 0, 0)] ++
  [(['n', 'o', 'p'], 7, 0, 0)]

/-! ### Runs -/

/-- `n` steps, up to the first outcome that is no next state. It is `core.run` of the host's interface
(`core_run_eq` in Laws/Run.lean), over the model's own types. -/
def run : Nat → State → Host.Outcome State Fault Refusal
  | 0, s => .next s
  | n + 1, s =>
    match step s with
    | .next t => run n t
    | .fault f => .fault f
    | .refused r => .refused r

/-- The instruction at the pc is a `sw` to the word index `k`. -/
def StoresTo (s : State) (k : Int) : Prop :=
  ∃ d s1 s2, decode (s.program.drop s.pc.toInt.toNat) = .instr (.sw d s1 s2) ∧
    k = wrap32 (operandInt s s1 + operandInt s s2)

/-- None of the first `n` steps from `s` is a `sw` to the word index `k`. -/
def NoStoreWithin (n : Nat) (s : State) (k : Int) : Prop :=
  ∀ m u, m < n → run m s = .next u → ¬ StoresTo u k

/-! ### The invariant of a run -/

/-- The fourteen triples of R104, as numbers. -/
def controlRows : List (Nat × Nat × Nat) :=
  [(0, 0, 0), (1, 0, 0), (2, 0, 0), (3, 0, 0), (4, 0, 0), (5, 1, 0), (6, 0, 1)] ++
  [(7, 0, 0), (8, 0, 0), (9, 0, 0), (10, 0, 0), (11, 0, 0)]

/-- The run status says what is the case: a halted machine's pc is at or past the end of the stream (R132),
a fault's information is that of the instruction at `pc` (R192, R193). -/
def StatusTrue (s : State) : Prop :=
  match s.status with
  | .running => True
  | .halted => (s.program.length : Int) ≤ s.pc.toInt
  | .faulted (.pcOutOfRange p) => p = s.pc.toInt ∧ p < 0
  | .faulted (.truncatedFrame p) =>
    p = s.pc.toInt ∧ 0 ≤ p ∧ p < (s.program.length : Int) ∧ (s.program.length : Int) ≤ p + 3
  | .faulted (.malformedOperand t k) =>
    s.pc.toInt < k ∧ k ≤ s.pc.toInt + 3 ∧ s.tok k = some t ∧ Operand.ofToken t = .malformed t
  | .faulted (.outOfRangeAddress idx) => idx < 0 ∨ 2000 ≤ idx

/-- The trace port's record: exactly one terminal snapshot, the last one, if the machine has halted, and
none before; with tracing off no other; every memory shown in canonical form (R212). -/
def TraceTrue (s : State) : Prop :=
  (∀ x ∈ s.trace, x.mem.wf) ∧
  (s.traceEnable = false → ∀ x ∈ s.trace, x.terminal = true) ∧
  match s.status with
  | .halted => ∃ rest, s.trace = ⟨s.regs, s.mem, s.ctl, true⟩ :: rest ∧
      ∀ x ∈ rest, x.terminal = false
  | .running => ∀ x ∈ s.trace, x.terminal = false
  | .faulted _ => ∀ x ∈ s.trace, x.terminal = false

/-- The invariant every step keeps. -/
structure Inv (s : State) : Prop where
  /-- Data memory is in canonical form, inside its 2000 words. -/
  memory : s.mem.wf
  /-- The stream has a length the spec allows (R36). -/
  stream : s.program.length ≤ Config.maxStreamLength
  /-- The control triple is a row of the decode table (R104), or that of reset. -/
  control : s.ctl.triple ∈ controlRows
  status : StatusTrue s
  trace : TraceTrue s

end Sys2Proof.Machine
end

