-- ==== Sys2Proof/Certificates/Slice0/Obligations.lean ====
section
/-! DEFINITION. The statements for the provers. Each docstring names the rule of spec/ it formalises and,
where the spec marks a point as its own decision D<n>, that decision. -/

open Sys2Proof Sys2Proof.Machine

/-! ### Reset, registers, operands -/

/-- R220: what a reset leaves, from any state whatever: every register and data-memory word 0, `pc` 0, the
triple (0, 0, 0), the status `running`; token store and `TRACE_ENABLE` unchanged. -/
def Obligations.ResetLeavesZeroState : Prop :=
  ∀ s : State,
    s.hostReset.pc.toInt = 0 ∧ (∀ r, s.hostReset.readReg r = 0) ∧ (∀ k, s.hostReset.word k = 0) ∧
    s.hostReset.ctl.triple = (0, 0, 0) ∧ s.hostReset.status = .running ∧
    s.hostReset.program = s.program ∧ s.hostReset.traceEnable = s.traceEnable

/-- R47 of the state the host's interface names, the machine before a stream is loaded. Its empty token
store, tracing off and empty trace record are the model's choice (log entry 4). -/
def Obligations.ResetStateIsZero : Prop :=
  State.reset.pc.toInt = 0 ∧ (∀ r, State.reset.readReg r = 0) ∧ (∀ k, State.reset.word k = 0) ∧
    State.reset.ctl.triple = (0, 0, 0) ∧ State.reset.status = .running ∧
    State.reset.program = [] ∧ State.reset.traceEnable = false ∧ State.reset.trace = []

/-- R110 with the grammar of R76 and R77 (D3): for every token and every slot, a register name resolves to
the register's value; any other token that spells an integer in range to that integer; every other token
raises `MalformedOperand` with the token and its index in the stream. -/
def Obligations.ResolverReadsNameThenLiteral : Prop :=
  ∀ (s : State) (slot : Nat) (t : Token),
    (∀ r, t = Reg.name r → resolve s slot (Operand.ofToken t) = .ok (s.readReg r)) ∧
    ((∀ r, t ≠ Reg.name r) →
      (∀ n, IsLiteral t n → ∃ v : Word, v.toInt = n ∧ resolve s slot (Operand.ofToken t) = .ok v) ∧
      ((∀ n, ¬ IsLiteral t n) → resolve s slot (Operand.ofToken t) =
        .error (.malformedOperand t (s.pc.toInt + slot))))

/-- R124: the write-back port. A writable register named as destination receives the value and no other
register changes; `$zero`, a literal token, any other token and `NOREG` change no register; `$zero` reads 0
in any case (R24). -/
def Obligations.WriteBackChangesOnlyNamedRegister : Prop :=
  ∀ (f : RegFile) (v : Word) (r r' : Reg) (l : Word) (t : Token),
    (writeBack (some (.reg r)) (some v) f).read r' =
      (if r' = .zero then 0 else if r = r' then v else f.read r') ∧
    writeBack (some (.reg .zero)) (some v) f = f ∧
    writeBack (some (.lit l)) (some v) f = f ∧
    writeBack (some (.malformed t)) (some v) f = f ∧
    writeBack none (some v) f = f ∧
    f.read .zero = 0

/-- R55 (D13): a data-memory access at any computed index succeeds exactly when `0 <= idx <= 1999`, with no
wrap and no clamp, and is otherwise `OutOfRangeAddress(idx)`. -/
def Obligations.MemoryAccessIsBoundsChecked : Prop :=
  ∀ (m : Memory) (idx v : Word),
    (0 ≤ idx.toInt → idx.toInt ≤ 1999 →
      memRead m idx = .ok (m.word idx.toInt.toNat) ∧ ∃ m', memWrite m idx v = .ok m') ∧
    ((idx.toInt < 0 ∨ 1999 < idx.toInt) →
      memRead m idx = .error (.outOfRangeAddress idx.toInt) ∧
      memWrite m idx v = .error (.outOfRangeAddress idx.toInt))

/-- R56: a write changes the word it names and no other, and keeps the canonical form. -/
def Obligations.MemoryWriteChangesOneWord : Prop :=
  ∀ (m m' : Memory) (idx v : Word), m.wf → memWrite m idx v = .ok m' →
    m'.wf ∧ ∀ k : Nat, m'.word k = if (k : Int) = idx.toInt then v else m.word k

/-! ### Encoding -/

/-- R71, R80, R74: token frames written out from the encoding tables decode to what they stand for. -/
def Obligations.WrittenOutFramesDecode : Prop :=
  decode [['j'], ['8'], ['0'], ['0']] = .instr (.j (.lit 8) (.lit 0) (.lit 0)) ∧
  decode [['b', 'e', 'q'], ['$', 't', '0'], ['$', 't', '1'], ['-', '4']] =
    .instr (.beq (.reg .t0) (.reg .t1) (.lit (-4))) ∧
  decode [['a', 'd', 'd', 'i'], ['$', 'z', 'e', 'r', 'o'], ['0', '0', '7'], ['+', '5']] =
    .instr (.addi (.reg .zero) (.lit 7) (.malformed ['+', '5'])) ∧
  decode [['l', 'w'], ['$', 's', '7'], ['$', 's', 'p'], ['1']] =
    .instr (.lw (.reg .s7) (.malformed ['$', 's', 'p']) (.lit 1)) ∧
  decode [['n', 'o', 'p'], ['j']] = .instr .nop ∧
  decode [['A', 'D', 'D']] = .instr (.unrecognised ['A', 'D', 'D']) ∧
  decode [['o', 'r'], ['$', 'v', '0'], ['1']] = .truncated

/-- Decode and encode agree (R71, R74, R76, R80): every well-formed instruction, with every operand at every
value, is what the decoder reads from its encoding, whatever tokens follow. -/
def Obligations.DecodeOfEncode : Prop :=
  ∀ (i : Instr) (rest : List Token), i.wf = true → decode (encode i ++ rest) = .instr i

/-- The other direction: whatever the decoder reads is well-formed, and its encoding decodes to it again. -/
def Obligations.DecodedIsWellFormed : Prop :=
  ∀ (toks : List Token) (i : Instr), decode toks = .instr i →
    i.wf = true ∧ decode (encode i) = .instr i

/-! ### The step -/

/-- R100, R101, R136: when the tokens at the pc of a running machine decode to an instruction, the step is
that instruction's meaning at that state, with nothing added around it. -/
def Obligations.StepRunsDecodedInstruction : Prop :=
  ∀ (s : State) (i : Instr), s.status = .running → 0 ≤ s.pc.toInt →
    decode (s.program.drop s.pc.toInt.toNat) = .instr i → step s = exec i s

/-- R132: a running machine whose fetch test finds `pc >= L` halts: pc, registers, memory, control triple and
inputs keep their values and the terminal snapshot is emitted; and a running machine halts in no other
case. -/
def Obligations.HaltExactlyAtStreamEnd : Prop :=
  (∀ s : State, s.status = .running → (s.program.length : Int) ≤ s.pc.toInt →
    step s = .next { s with
      status := .halted, trace := ⟨s.regs, s.mem, s.ctl, true⟩ :: s.trace }) ∧
  (∀ s t : State, s.status = .running → step s = .next t → t.status = .halted →
    (s.program.length : Int) ≤ s.pc.toInt)

/-- R197 (D7): a running machine whose fetch test finds a negative pc faults with `PcOutOfRange(pc)`;
pc, registers, memory, inputs and trace stay as they were. -/
def Obligations.NegativePcFaults : Prop :=
  ∀ s : State, s.status = .running → s.pc.toInt < 0 →
    TakesFault (step s) s (.pcOutOfRange s.pc.toInt)

/-- R45 (D23): `halted` and `faulted` are absorbing. Over any number of steps a halted machine stays as it
is, and no step of a faulted one gives a next state: it answers the recorded fault (how the two are shown
to the host is the model's choice, log entry 2). -/
def Obligations.StoppedMachineTakesNoStep : Prop :=
  ∀ (s : State) (n : Nat),
    (s.status = .halted → run n s = .next s) ∧
    (∀ f, s.status = .faulted f → run (n + 1) s = .fault f)

/-- A step never refuses, and its outcome is a fault only for a machine that has faulted before: every
instruction of a running machine has a next state, a fatal fault it meets among them (log entry 2). -/
def Obligations.RunningMachineHasNextState : Prop :=
  ∀ s : State, (s.status = .running → ∃ t, step s = .next t) ∧
    (∀ r, step s ≠ .refused r) ∧ (∀ f, step s = .fault f → s.status = .faulted f)

/-- R204, R193: a step of a running machine that raises a fault saves nothing and transfers no control:
registers, data memory, pc, token store, `TRACE_ENABLE` and trace are as before. -/
def Obligations.FaultsArePrecise : Prop :=
  ∀ (s t : State) (f : Fault), s.status = .running → step s = .next t → t.status = .faulted f →
    OnlyStatusChanged s t

/-- R194: a token that is neither register name nor literal is a malformed operand; any of the twelve `F4`
instructions faults on the first of its three operands that is one, used or not; `nop` and an unrecognised
opcode complete in every state and so never do. -/
def Obligations.MalformedOperandFaults : Prop :=
  (∀ t : Token, (∀ r, t ≠ Reg.name r) → (∀ n, ¬ IsLiteral t n) → Operand.ofToken t = .malformed t) ∧
  (FaultsOnMalformed .j ∧ FaultsOnMalformed .beq ∧ FaultsOnMalformed .add ∧ FaultsOnMalformed .addi ∧
    FaultsOnMalformed .sub ∧ FaultsOnMalformed .sw ∧ FaultsOnMalformed .lw ∧ FaultsOnMalformed .sll ∧
    FaultsOnMalformed .srl ∧ FaultsOnMalformed .mul ∧ FaultsOnMalformed .and ∧ FaultsOnMalformed .or) ∧
  ∀ (s : State) (i : Instr), (i = .nop ∨ ∃ op, i = .unrecognised op) →
    ∃ t, exec i s = .next t ∧ t.status = s.status

/-- R196, R106 (D8): for each of the twelve `F4` opcode tokens a frame cut short by the end of the stream is
`TruncatedFrame(P)`, before any operand is looked at, and a whole frame is executed. -/
def Obligations.FourTokenFramesAreFetched : Prop :=
  FetchesFrame ['j'] .j ∧ FetchesFrame ['b', 'e', 'q'] .beq ∧ FetchesFrame ['a', 'd', 'd'] .add ∧
  FetchesFrame ['a', 'd', 'd', 'i'] .addi ∧ FetchesFrame ['s', 'u', 'b'] .sub ∧
  FetchesFrame ['s', 'w'] .sw ∧ FetchesFrame ['l', 'w'] .lw ∧ FetchesFrame ['s', 'l', 'l'] .sll ∧
  FetchesFrame ['s', 'r', 'l'] .srl ∧ FetchesFrame ['m', 'u', 'l'] .mul ∧
  FetchesFrame ['a', 'n', 'd'] .and ∧ FetchesFrame ['o', 'r'] .or

/-- R194 to R197, R202: what each fault says is the case. A fault of a running machine's step names the pc
and a negative one; or an `F4` opcode token at the pc whose frame passes the end of the stream; or a token
of that frame that is neither register name nor literal, and no earlier operand token is such; or an index
outside 0 to 1999, and then the opcode token is `lw` or `sw`. -/
def Obligations.FaultsHaveTheirCause : Prop :=
  ∀ (s t : State) (f : Fault), s.status = .running → step s = .next t → t.status = .faulted f →
    match f with
    | .pcOutOfRange p => p = s.pc.toInt ∧ p < 0
    | .truncatedFrame p => p = s.pc.toInt ∧ (s.program.length : Int) ≤ p + 3 ∧
        ∃ op o, s.tok p = some op ∧ Opcode.ofToken op = some o ∧ o ≠ .nop
    | .malformedOperand tok k => s.tok k = some tok ∧ Operand.ofToken tok = .malformed tok ∧
        s.pc.toInt < k ∧ k ≤ s.pc.toInt + 3 ∧
        (∀ k', s.pc.toInt < k' → k' < k →
          ∃ tok', s.tok k' = some tok' ∧ resolvable (Operand.ofToken tok') = true) ∧
        ∃ op o, s.tok s.pc.toInt = some op ∧ Opcode.ofToken op = some o ∧ o ≠ .nop
    | .outOfRangeAddress idx => (idx < 0 ∨ 1999 < idx) ∧
        (s.tok s.pc.toInt = some ['l', 'w'] ∨ s.tok s.pc.toInt = some ['s', 'w'])

/-- R195: in the step of a `lw` or `sw` whose operands resolve, an index `wrap32(s1 + s2)` below 0 or above
1999 is `OutOfRangeAddress(idx)`, also where the destination would discard the word; no other instruction
raises it. -/
def Obligations.OutOfRangeAddressFaults : Prop :=
  (∀ (s : State) (d s1 s2 : Operand), frameResolves d s1 s2 →
    (wrap32 (operandInt s s1 + operandInt s s2) < 0 ∨
      1999 < wrap32 (operandInt s s1 + operandInt s s2)) →
    TakesFault (exec (.lw d s1 s2) s) s
      (.outOfRangeAddress (wrap32 (operandInt s s1 + operandInt s s2))) ∧
    TakesFault (exec (.sw d s1 s2) s) s
      (.outOfRangeAddress (wrap32 (operandInt s s1 + operandInt s s2)))) ∧
  ∀ (s t : State) (i : Instr) (idx : Int), s.status = .running → exec i s = .next t →
    t.status = .faulted (.outOfRangeAddress idx) →
    ∃ d s1 s2, i = .lw d s1 s2 ∨ i = .sw d s1 s2

/-! ### Control transfer -/

/-- R140: `j` sets the pc to the value of its first operand, whatever the pc was. -/
def Obligations.JumpGoesToFirstOperand : Prop :=
  FetchesFrame ['j'] .j ∧ FaultsOnMalformed .j ∧
  ∀ (s : State) (d s1 s2 : Operand), frameResolves d s1 s2 →
    CompletesWith (.j d s1 s2) s (1, 0, 0) (operandInt s d) (regsOf s) (wordsOf s)

/-- R141: `beq` goes to `P + s2 + 4` if its first two operand values are equal and to `P + 4` if not; it writes
no register (R126, D11). -/
def Obligations.BranchIfEqualAddsDisplacement : Prop :=
  FetchesFrame ['b', 'e', 'q'] .beq ∧ FaultsOnMalformed .beq ∧
  ∀ (s : State) (d s1 s2 : Operand), frameResolves d s1 s2 →
    (operandInt s d = operandInt s s1 →
      CompletesWith (.beq d s1 s2) s (2, 0, 0) (wrap32 (s.pc.toInt + operandInt s s2 + 4))
        (regsOf s) (wordsOf s)) ∧
    (operandInt s d ≠ operandInt s s1 →
      CompletesWith (.beq d s1 s2) s (2, 0, 0) (wrap32 (s.pc.toInt + 4)) (regsOf s) (wordsOf s))

/-- R197, R34: a step from a pc inside a stream of allowed length leaves a negative pc only by a `j` to a
negative target or by a taken `beq` whose target is negative or passes 2^31 - 1; that step completes. -/
def Obligations.NegativePcComesFromTransfer : Prop :=
  ∀ (s t : State), s.status = .running → 0 ≤ s.pc.toInt →
    s.program.length ≤ Config.maxStreamLength →
    step s = .next t → t.pc.toInt < 0 →
    t.status = .running ∧ ∃ d s1 s2,
      (decode (s.program.drop s.pc.toInt.toNat) = .instr (.j d s1 s2) ∧ operandInt s d < 0) ∨
      (decode (s.program.drop s.pc.toInt.toNat) = .instr (.beq d s1 s2) ∧
        operandInt s d = operandInt s s1 ∧
        (s.pc.toInt + operandInt s s2 + 4 < 0 ∨ 2147483647 < s.pc.toInt + operandInt s s2 + 4))

/-! ### Arithmetic -/

/-- R150: `add` writes `wrap32(s1 + s2)` to its destination and advances the pc by 4. -/
def Obligations.AddWritesWrappedSum : Prop :=
  FetchesFrame ['a', 'd', 'd'] .add ∧ FaultsOnMalformed .add ∧
  ∀ (s : State) (d s1 s2 : Operand), frameResolves d s1 s2 →
    CompletesWith (.add d s1 s2) s (3, 0, 0) (wrap32 (s.pc.toInt + 4))
      (regsWritten s d (wrap32 (operandInt s s1 + operandInt s s2))) (wordsOf s)

/-- R151: `addi` writes `wrap32(s1 + s2)` to its destination and advances the pc by 4; the spelling of its
token is decision D2. -/
def Obligations.AddImmediateWritesWrappedSum : Prop :=
  FetchesFrame ['a', 'd', 'd', 'i'] .addi ∧ FaultsOnMalformed .addi ∧
  ∀ (s : State) (d s1 s2 : Operand), frameResolves d s1 s2 →
    CompletesWith (.addi d s1 s2) s (3, 0, 0) (wrap32 (s.pc.toInt + 4))
      (regsWritten s d (wrap32 (operandInt s s1 + operandInt s s2))) (wordsOf s)

/-- R81: the tokens `add` and `addi` differ in nothing observable. With one in the place of the other at the pc,
a running machine takes the same step in every state, whatever the operand tokens, faults, control triple
and trace port included. -/
def Obligations.AddAndAddImmediateAgree : Prop :=
  ∀ (s t : State), s.status = .running → s.tok s.pc.toInt = some ['a', 'd', 'd'] → step s = .next t →
    step { s with program := s.program.set s.pc.toInt.toNat ['a', 'd', 'd', 'i'] } =
      .next { t with program := s.program.set s.pc.toInt.toNat ['a', 'd', 'd', 'i'] }

/-- R152: `sub` writes `wrap32(s1 - s2)`; the spelling of its token is decision D2. -/
def Obligations.SubtractWritesWrappedDifference : Prop :=
  FetchesFrame ['s', 'u', 'b'] .sub ∧ FaultsOnMalformed .sub ∧
  ∀ (s : State) (d s1 s2 : Operand), frameResolves d s1 s2 →
    CompletesWith (.sub d s1 s2) s (4, 0, 0) (wrap32 (s.pc.toInt + 4))
      (regsWritten s d (wrap32 (operandInt s s1 - operandInt s s2))) (wordsOf s)

/-- R153: `mul` writes the low 32 bits of the exact product; the spelling of its token is decision D2. -/
def Obligations.MultiplyWritesWrappedProduct : Prop :=
  FetchesFrame ['m', 'u', 'l'] .mul ∧ FaultsOnMalformed .mul ∧
  ∀ (s : State) (d s1 s2 : Operand), frameResolves d s1 s2 →
    CompletesWith (.mul d s1 s2) s (9, 0, 0) (wrap32 (s.pc.toInt + 4))
      (regsWritten s d (wrap32 (operandInt s s1 * operandInt s s2))) (wordsOf s)

/-! ### Loads and stores -/

/-- R160 (D12, D27): `sw` stores the value of its first operand, a register's or a literal's, at the word index
`wrap32(s1 + s2)` when that is 0 to 1999, writes no register, and faults on any other index. The memory is
in canonical form, as it is in every run (`Obligations.StepKeepsInv`). -/
def Obligations.StoreWordWritesOneWord : Prop :=
  FetchesFrame ['s', 'w'] .sw ∧ FaultsOnMalformed .sw ∧
  ∀ (s : State) (d s1 s2 : Operand) (idx : Int), s.mem.wf → frameResolves d s1 s2 →
    idx = wrap32 (operandInt s s1 + operandInt s s2) →
    (0 ≤ idx → idx ≤ 1999 →
      CompletesWith (.sw d s1 s2) s (5, 1, 0) (wrap32 (s.pc.toInt + 4)) (regsOf s)
        (wordsStored s idx (operandInt s d))) ∧
    ((idx < 0 ∨ 1999 < idx) →
      TakesFault (exec (.sw d s1 s2) s) s (.outOfRangeAddress idx))

/-- R161: `lw` writes the word at the word index `wrap32(s1 + s2)` to its destination when that is 0 to 1999,
and faults on any other index, whatever its destination. -/
def Obligations.LoadWordReadsOneWord : Prop :=
  FetchesFrame ['l', 'w'] .lw ∧ FaultsOnMalformed .lw ∧
  ∀ (s : State) (d s1 s2 : Operand) (idx : Int), frameResolves d s1 s2 →
    idx = wrap32 (operandInt s s1 + operandInt s s2) →
    (0 ≤ idx → idx ≤ 1999 →
      CompletesWith (.lw d s1 s2) s (6, 0, 1) (wrap32 (s.pc.toInt + 4))
        (regsWritten s d (wordsOf s idx.toNat)) (wordsOf s)) ∧
    ((idx < 0 ∨ 1999 < idx) →
      TakesFault (exec (.lw d s1 s2) s) s (.outOfRangeAddress idx))

/-- R58: a `lw` returns the value of the most recent `sw` to the same index in execution order: after a `sw`
and any number of steps of which none is a `sw` to that index, and after a reset and any number of such
steps, when it returns 0. The destination is any writable register. The memory of the first clause is in
canonical form, as it is in every run. -/
def Obligations.LoadReadsMostRecentStore : Prop :=
  (∀ (n : Nat) (s t u : State) (d s1 s2 a1 a2 : Operand) (r : Reg) (k : Int),
    s.mem.wf → frameResolves d s1 s2 → k = wrap32 (operandInt s s1 + operandInt s s2) →
    0 ≤ k → k ≤ 1999 → exec (.sw d s1 s2) s = .next t →
    run n t = .next u → NoStoreWithin n t k →
    resolvable a1 = true → resolvable a2 = true → k = wrap32 (operandInt u a1 + operandInt u a2) →
    r ≠ .zero →
    ∃ w, exec (.lw (.reg r) a1 a2) u = .next w ∧ (w.readReg r).toInt = operandInt s d) ∧
  ∀ (n : Nat) (program : List Token) (traceEnable : Bool) (u : State) (a1 a2 : Operand) (r : Reg) (k : Int),
    run n (State.boot program traceEnable) = .next u →
    NoStoreWithin n (State.boot program traceEnable) k → 0 ≤ k → k ≤ 1999 →
    resolvable a1 = true → resolvable a2 = true → k = wrap32 (operandInt u a1 + operandInt u a2) →
    ∃ w, exec (.lw (.reg r) a1 a2) u = .next w ∧ w.readReg r = 0

/-! ### Shifts and logic -/

/-- R171: `sll` writes `wrap32(u32(s1) * 2^sa)`, `sa = s2 mod 32`; for an amount outside 0 to 31 the
reduction is the spec's decision D5 (R170). -/
def Obligations.ShiftLeftFillsWithZeros : Prop :=
  FetchesFrame ['s', 'l', 'l'] .sll ∧ FaultsOnMalformed .sll ∧
  ∀ (s : State) (d s1 s2 : Operand), frameResolves d s1 s2 →
    CompletesWith (.sll d s1 s2) s (7, 0, 0) (wrap32 (s.pc.toInt + 4))
      (regsWritten s d (wrap32 ((operandInt s s1 % 4294967296) *
        2 ^ (operandInt s s2 % 32).toNat))) (wordsOf s)

/-- R172: `srl` writes `wrap32(floor(u32(s1) / 2^sa))`, `sa = s2 mod 32`; for an amount outside 0 to 31 the
reduction is the spec's decision D5 (R170). -/
def Obligations.ShiftRightFillsWithZeros : Prop :=
  FetchesFrame ['s', 'r', 'l'] .srl ∧ FaultsOnMalformed .srl ∧
  ∀ (s : State) (d s1 s2 : Operand), frameResolves d s1 s2 →
    CompletesWith (.srl d s1 s2) s (8, 0, 0) (wrap32 (s.pc.toInt + 4))
      (regsWritten s d (wrap32 ((operandInt s s1 % 4294967296) /
        2 ^ (operandInt s s2 % 32).toNat))) (wordsOf s)

/-- R173: bit `k` of the result of `and` is 1 exactly when bit `k` of both sources is, the sources read as
two's-complement words; the spelling of its token is decision D2. -/
def Obligations.AndCombinesBits : Prop :=
  FetchesFrame ['a', 'n', 'd'] .and ∧ FaultsOnMalformed .and ∧
  ∀ (s : State) (d s1 s2 : Operand), frameResolves d s1 s2 →
    ∃ v : Word, (∀ k, k < 32 → v.getLsbD k =
        ((wordOfInt (operandInt s s1)).getLsbD k && (wordOfInt (operandInt s s2)).getLsbD k)) ∧
      CompletesWith (.and d s1 s2) s (10, 0, 0) (wrap32 (s.pc.toInt + 4))
        (regsWritten s d v.toInt) (wordsOf s)

/-- R174: bit `k` of the result of `or` is 1 exactly when bit `k` of either source is; the spelling of its
token is decision D2. -/
def Obligations.OrCombinesBits : Prop :=
  FetchesFrame ['o', 'r'] .or ∧ FaultsOnMalformed .or ∧
  ∀ (s : State) (d s1 s2 : Operand), frameResolves d s1 s2 →
    ∃ v : Word, (∀ k, k < 32 → v.getLsbD k =
        ((wordOfInt (operandInt s s1)).getLsbD k || (wordOfInt (operandInt s s2)).getLsbD k)) ∧
      CompletesWith (.or d s1 s2) s (11, 0, 0) (wrap32 (s.pc.toInt + 4))
        (regsWritten s d v.toInt) (wordsOf s)

/-! ### `nop` and the unrecognised opcode -/

/-- R180, R112: `nop` is fetched from its one token, wherever the stream ends, touches no register and no
memory word, and advances the pc by exactly 1. -/
def Obligations.NopAdvancesByOneToken : Prop :=
  (∀ s : State, s.status = .running → s.tok s.pc.toInt = some ['n', 'o', 'p'] →
    step s = exec .nop s) ∧
  ∀ s : State, CompletesWith .nop s (7, 0, 0) (wrap32 (s.pc.toInt + 1)) (regsOf s) (wordsOf s)

/-- R181, R82 (D9): any token in opcode position other than the thirteen is skipped, wherever the stream ends
and whatever follows it: no register and no memory word changes and the pc advances by 4. -/
def Obligations.UnrecognisedOpcodeIsSkipped : Prop :=
  (∀ (s : State) (op : Token), s.status = .running → s.tok s.pc.toInt = some op →
    (∀ triple, (op, triple) ∉ decodeTable) →
    step s = exec (.unrecognised op) s) ∧
  ∀ (s : State) (op : Token),
    CompletesWith (.unrecognised op) s (0, 0, 0) (wrap32 (s.pc.toInt + 4)) (regsOf s) (wordsOf s)

/-! ### Frames and rules about the whole machine -/

/-- The frame of the nine instructions that write a register (R25, R124), for every form and whether they
complete or fault: every register but a writable one named as destination, every word of data memory,
the token store and `TRACE_ENABLE` are as before. -/
def Obligations.RegisterInstructionsFrame : Prop :=
  ∀ (s t : State) (i : Instr) (d : Operand), WritesRegister i d → exec i s = .next t →
    (∀ r, ¬ (d = .reg r ∧ r ≠ .zero) → t.readReg r = s.readReg r) ∧
    (∀ k, t.word k = s.word k) ∧ t.program = s.program ∧ t.traceEnable = s.traceEnable

/-- The frame of `sw` (R120, R160), for every form and whether it completes or faults: every register, and
every word of data memory at another index than the one the ALU computes, is as before. -/
def Obligations.StoreInstructionFrame : Prop :=
  ∀ (s t : State) (d s1 s2 : Operand), exec (.sw d s1 s2) s = .next t →
    (∀ r, t.readReg r = s.readReg r) ∧
    (∀ v idx, resolveAll s d s1 s2 = .ok v → (alu .store v.d v.s1 v.s2 s.pc).index = some idx →
      ∀ k : Nat, (k : Int) ≠ idx.toInt → t.word k = s.word k) ∧
    (∀ f, resolveAll s d s1 s2 = .error f → ∀ k, t.word k = s.word k) ∧
    t.program = s.program ∧ t.traceEnable = s.traceEnable

/-- The frame of `j`, `beq`, `nop` and an unrecognised opcode (R25, R126), for every form and whether they
complete or fault: all registers and all of data memory are as before. -/
def Obligations.ControlInstructionsFrame : Prop :=
  ∀ (s t : State) (i : Instr),
    ((∃ d s1 s2, i = .j d s1 s2 ∨ i = .beq d s1 s2) ∨ i = .nop ∨ ∃ op, i = .unrecognised op) →
    exec i s = .next t →
    (∀ r, t.readReg r = s.readReg r) ∧ (∀ k, t.word k = s.word k) ∧
    t.program = s.program ∧ t.traceEnable = s.traceEnable

/-- R25: a register changes in a step only if the instruction at the pc is one of the nine that write one and
names that register, a writable one, as its destination; so at most one changes (R124), and `$zero`
always reads 0. -/
def Obligations.OnlyDestinationRegisterChanges : Prop :=
  ∀ (s t : State) (r : Reg), step s = .next t →
    t.readReg .zero = 0 ∧
    (t.readReg r ≠ s.readReg r → r ≠ .zero ∧ ∃ i,
      decode (s.program.drop s.pc.toInt.toNat) = .instr i ∧ WritesRegister i (.reg r))

/-- R37, R50: data memory is written only by `sw`: a step changes a word only if the instruction at the pc is a
`sw` and the word is the one it names. The memory is in canonical form, as it is in every run. -/
def Obligations.OnlyStoreWritesMemory : Prop :=
  ∀ (s t : State) (k : Nat), s.mem.wf → step s = .next t → t.word k ≠ s.word k →
    k ≤ 1999 ∧ ∃ d s1 s2, decode (s.program.drop s.pc.toInt.toNat) = .instr (.sw d s1 s2) ∧
      (k : Int) = wrap32 (operandInt s s1 + operandInt s s2) ∧ (t.word k).toInt = operandInt s d

/-- R36, R62, R222: no step, of whatever instruction, changes the token store or `TRACE_ENABLE`, over any
number of steps. -/
def Obligations.ProgramIsReadOnly : Prop :=
  ∀ (n : Nat) (s t : State), run n s = .next t →
    t.program = s.program ∧ t.traceEnable = s.traceEnable

/-- R104 (D2, D9, D12): the control triple after a step that a running machine completes is the row of the
decode table for the token at the pc, and (0, 0, 0) for any other token, whatever the triple before. -/
def Obligations.ControlTripleFollowsDecodeTable : Prop :=
  ∀ (s t : State) (op : Token), s.status = .running → s.tok s.pc.toInt = some op →
    step s = .next t → t.status = .running →
    (∀ triple, (op, triple) ∈ decodeTable → t.ctl.triple = triple) ∧
    ((∀ triple, (op, triple) ∉ decodeTable) → t.ctl.triple = (0, 0, 0))

/-- R212 (D18): what a step of a running machine emits on the trace port. A completed step emits one snapshot
of the registers, memory and triple it leaves, not marked, exactly if tracing is enabled; halting emits one
marked terminal in any case; a step that faults emits none. -/
def Obligations.TracePortEmitsSnapshots : Prop :=
  ∀ s t : State, s.status = .running → step s = .next t →
    match t.status with
    | .running => t.trace =
        (if s.traceEnable then ⟨t.regs, t.mem, t.ctl, false⟩ :: s.trace else s.trace)
    | .halted => t.trace = ⟨t.regs, t.mem, t.ctl, true⟩ :: s.trace
    | .faulted _ => t.trace = s.trace

/-- R9: `TRACE_ENABLE` changes nothing but the trace port. Of two machines that differ in it and in what the
port has emitted, over any number of steps, one reaches a next state exactly if the other does, the two
differ in nothing else, and they stop with the same fault. -/
def Obligations.TraceEnableChangesOnlyTracePort : Prop :=
  ∀ (n : Nat) (s : State) (b : Bool) (tr : List Snapshot),
    (∀ t, run n s = .next t → ∃ tr',
      run n { s with traceEnable := b, trace := tr } =
        .next { t with traceEnable := b, trace := tr' }) ∧
    (∀ f, run n s = .fault f →
      run n { s with traceEnable := b, trace := tr } = .fault f)

/-! ### The invariant -/

/-- The machine just reset meets the invariant, with any stream the spec allows. -/
def Obligations.ResetMeetsInvariant : Prop :=
  Inv State.reset ∧
  ∀ (program : List Token) (traceEnable : Bool), program.length ≤ Config.maxStreamLength →
    Inv (State.boot program traceEnable)

/-- Every step keeps the invariant: data memory in canonical form inside its 2000 words, the control triple a
row of the decode table, a run status whose information is true, exactly one terminal snapshot and that
at the halt. -/
def Obligations.StepKeepsInv : Prop :=
  ∀ s t : State, Inv s → step s = .next t → Inv t
end

