-- ==== Sys2Proof/Laws/Decode.lean ====
section
/-! SUPPORT. The decoder and the encoder: names and opcode tokens are told apart, a literal spells its word,
and what the decoder can answer. -/

namespace Sys2Proof

/-! ### Register names and opcode tokens -/

theorem Reg.ofToken_name (r : Reg) : Reg.ofToken r.name = some r := by cases r <;> decide

/-- A token names a register exactly when it is that register's name. -/
theorem Reg.ofToken_eq_some {t : Token} {r : Reg} : Reg.ofToken t = some r ↔ t = r.name := by
  constructor
  · intro h
    have := List.find?_some h
    simpa using (of_decide_eq_true this).symm
  · rintro rfl
    exact Reg.ofToken_name r

theorem Reg.ofToken_eq_none {t : Token} : Reg.ofToken t = none ↔ ∀ r, t ≠ Reg.name r := by
  constructor
  · rintro h r rfl
    rw [Reg.ofToken_name] at h
    cases h
  · intro h
    rcases hr : Reg.ofToken t with _ | r
    · rfl
    · exact absurd (Reg.ofToken_eq_some.1 hr) (h r)

theorem Opcode.ofToken_token (o : Opcode) : Opcode.ofToken o.token = some o := by cases o <;> decide

/-- A token selects an instruction exactly when it is that instruction's opcode token. -/
theorem Opcode.ofToken_eq_some {t : Token} {o : Opcode} : Opcode.ofToken t = some o ↔ t = o.token := by
  constructor
  · intro h
    have := List.find?_some h
    simpa using (of_decide_eq_true this).symm
  · rintro rfl
    exact Opcode.ofToken_token o

theorem Opcode.ofToken_eq_none {t : Token} : Opcode.ofToken t = none ↔ ∀ o, t ≠ Opcode.token o := by
  constructor
  · rintro h o rfl
    rw [Opcode.ofToken_token] at h
    cases h
  · intro h
    rcases ho : Opcode.ofToken t with _ | o
    · rfl
    · exact absurd (Opcode.ofToken_eq_some.1 ho) (h o)

/-- Every register name begins with `$`. -/
theorem Reg.name_head (r : Reg) : ∃ cs, r.name = '$' :: cs := by cases r <;> exact ⟨_, rfl⟩

/-! ### Literals -/

theorem digitValue_ofNat (d : Nat) (h : d < 10) : digitValue (Char.ofNat (48 + d)) = some d := by
  have : ∀ d : Fin 10, digitValue (Char.ofNat (48 + d.val)) = some d.val := by decide
  exact this ⟨d, h⟩

/-- Reading digits on from `a` after writing `n`: the place value of what was read before is a power of ten. -/
theorem digitsValue_decimalDigits (fuel n : Nat) (cs : List Char) (h : n < 10 ^ (fuel + 1)) :
    ∃ k, ∀ a, digitsValue a (decimalDigits (fuel + 1) n cs) = digitsValue (a * 10 ^ k + n) cs := by
  induction fuel generalizing n cs with
  | zero =>
    refine ⟨1, fun a => ?_⟩
    have hn : n < 10 := by omega
    simp only [decimalDigits, if_pos hn, digitsValue, digitValue_ofNat n hn]
    congr 1
    omega
  | succ fuel ih =>
    by_cases hn : n < 10
    · refine ⟨1, fun a => ?_⟩
      rw [decimalDigits, if_pos hn]
      simp only [digitsValue, digitValue_ofNat n hn]
      congr 1
      omega
    · have hdiv : n / 10 < 10 ^ (fuel + 1) := by
        rw [Nat.div_lt_iff_lt_mul (by decide)]
        rw [pow_succ] at h
        exact h
      obtain ⟨k, hk⟩ := ih (n / 10) (Char.ofNat (48 + n % 10) :: cs) hdiv
      refine ⟨k + 1, fun a => ?_⟩
      rw [decimalDigits, if_neg hn, hk]
      simp only [digitsValue, digitValue_ofNat (n % 10) (Nat.mod_lt _ (by decide))]
      congr 1
      rw [pow_succ, Nat.mul_add, ← Nat.mul_assoc, Nat.mul_comm 10, Nat.mul_assoc, Nat.add_assoc,
        Nat.div_add_mod, Nat.mul_comm 10]

/-- What is written begins with a digit. -/
theorem decimalDigits_head (fuel n : Nat) (cs : List Char) :
    ∃ d rest, d < 10 ∧ decimalDigits (fuel + 1) n cs = Char.ofNat (48 + d) :: rest := by
  induction fuel generalizing n cs with
  | zero =>
    by_cases hn : n < 10
    · exact ⟨n, cs, hn, by rw [decimalDigits, if_pos hn]⟩
    · exact ⟨n % 10, cs, Nat.mod_lt _ (by decide), by rw [decimalDigits, if_neg hn]; rfl⟩
  | succ fuel ih =>
    by_cases hn : n < 10
    · exact ⟨n, cs, hn, by rw [decimalDigits, if_pos hn]⟩
    · obtain ⟨d, rest, hd, h⟩ := ih (n / 10) (Char.ofNat (48 + n % 10) :: cs)
      exact ⟨d, rest, hd, by rw [decimalDigits, if_neg hn, h]⟩

theorem digit_char_ne (d : Nat) (h : d < 10) :
    Char.ofNat (48 + d) ≠ '-' ∧ Char.ofNat (48 + d) ≠ '+' ∧ Char.ofNat (48 + d) ≠ '$' := by
  have : ∀ d : Fin 10, Char.ofNat (48 + d.val) ≠ '-' ∧ Char.ofNat (48 + d.val) ≠ '+' ∧
      Char.ofNat (48 + d.val) ≠ '$' := by decide
  exact this ⟨d, h⟩

theorem unsignedLiteral_decimalDigits (n : Nat) (h : n < 10 ^ 10) :
    unsignedLiteral (decimalDigits 10 n []) = some n := by
  obtain ⟨d, rest, -, hd⟩ := decimalDigits_head 9 n []
  obtain ⟨k, hk⟩ := digitsValue_decimalDigits 9 n [] h
  have := hk 0
  rw [hd] at this ⊢
  rw [unsignedLiteral, this]
  simp [digitsValue]

theorem fittingWord_toInt (v : Word) : fittingWord v.toInt = some v := by
  have h1 := BitVec.toInt_lt (x := v)
  have h2 := BitVec.le_toInt (x := v)
  norm_num at h1 h2
  unfold fittingWord
  rw [if_pos ⟨by omega, by omega⟩, wordOfInt, BitVec.ofInt_toInt]

/-- The literal of a word spells that word. -/
theorem literalValue_literalToken (v : Word) : literalValue (literalToken v) = some v := by
  have h1 := BitVec.toInt_lt (x := v)
  have h2 := BitVec.le_toInt (x := v)
  norm_num at h1 h2
  have hu := unsignedLiteral_decimalDigits v.toInt.natAbs (by norm_num; omega)
  unfold literalToken
  split
  · rename_i hneg
    simp only [literalValue, if_pos, hu]
    rw [show -((v.toInt.natAbs : Nat) : Int) = v.toInt by omega]
    exact fittingWord_toInt v
  · rename_i hpos
    obtain ⟨d, rest, hd, he⟩ := decimalDigits_head 9 v.toInt.natAbs []
    obtain ⟨hm, hp, -⟩ := digit_char_ne d hd
    rw [he] at hu ⊢
    simp only [literalValue, if_neg hm, hp, false_and, if_false, hu]
    rw [show ((v.toInt.natAbs : Nat) : Int) = v.toInt by omega]
    exact fittingWord_toInt v

/-- No literal is a register name. -/
theorem Reg.ofToken_literalToken (v : Word) : Reg.ofToken (literalToken v) = none := by
  rw [Reg.ofToken_eq_none]
  intro r h
  obtain ⟨cs, hc⟩ := r.name_head
  rw [hc] at h
  unfold literalToken at h
  split at h
  · exact absurd (List.cons.inj h).1 (by decide)
  · obtain ⟨d, rest, hd, he⟩ := decimalDigits_head 9 v.toInt.natAbs []
    rw [he] at h
    exact (digit_char_ne d hd).2.2 (List.cons.inj h).1

/-! ### Operands -/

theorem Operand.ofToken_token (o : Operand) (h : o.wf = true) : Operand.ofToken o.token = o := by
  cases o with
  | reg r => simp only [Operand.token, Operand.ofToken, Reg.ofToken_name]
  | lit v =>
    simp only [Operand.token, Operand.ofToken, Reg.ofToken_literalToken, literalValue_literalToken]
  | malformed t => exact of_decide_eq_true h

/-- An operand read as malformed keeps its token. -/
theorem Operand.ofToken_malformed {t t' : Token} (h : Operand.ofToken t = .malformed t') : t' = t := by
  unfold Operand.ofToken at h
  split at h
  · cases h
  · split at h
    · cases h
    · exact (Operand.malformed.inj h).symm

theorem Operand.ofToken_wf (t : Token) : (Operand.ofToken t).wf = true := by
  rcases h : Operand.ofToken t with r | v | t'
  · rfl
  · rfl
  · have := Operand.ofToken_malformed h
    subst this
    exact decide_eq_true h

/-! ### What the decoder can answer -/

theorem decode_nil : decode [] = .noToken := rfl

/-- Four tokens with an opcode token first are that opcode's instruction; `nop` leaves the three unread. -/
theorem decode_frame (o : Opcode) (t1 t2 t3 : Token) (rest : List Token) :
    decode (o.token :: t1 :: t2 :: t3 :: rest) =
      .instr (o.instr (Operand.ofToken t1) (Operand.ofToken t2) (Operand.ofToken t3)) := by
  simp only [decode]
  rw [Opcode.ofToken_token]
  cases o <;> rfl

theorem decode_nop (rest : List Token) : decode (['n', 'o', 'p'] :: rest) = .instr .nop := rfl

theorem decode_unrecognised (op : Token) (rest : List Token) (h : Opcode.ofToken op = none) :
    decode (op :: rest) = .instr (.unrecognised op) := by
  simp only [decode]
  rw [h]

/-- All the decoder can answer, by the tokens it is given. -/
theorem decode_cases (toks : List Token) :
    (toks = [] ∧ decode toks = .noToken) ∨
    (∃ op rest, toks = op :: rest ∧ Opcode.ofToken op = none ∧
      decode toks = .instr (.unrecognised op)) ∨
    (∃ rest, toks = Opcode.nop.token :: rest ∧ decode toks = .instr .nop) ∨
    (∃ o rest, o ≠ .nop ∧ toks = Opcode.token o :: rest ∧ rest.length < 3 ∧
      decode toks = .truncated) ∨
    (∃ o t1 t2 t3 rest, o ≠ .nop ∧ toks = Opcode.token o :: t1 :: t2 :: t3 :: rest ∧
      decode toks = .instr
        (o.instr (Operand.ofToken t1) (Operand.ofToken t2) (Operand.ofToken t3))) := by
  rcases toks with _ | ⟨op, rest⟩
  · exact .inl ⟨rfl, rfl⟩
  rcases ho : Opcode.ofToken op with _ | o
  · exact .inr (.inl ⟨op, rest, rfl, ho, decode_unrecognised op rest ho⟩)
  have := Opcode.ofToken_eq_some.1 ho
  subst this
  by_cases hn : o = .nop
  · subst hn
    exact .inr (.inr (.inl ⟨rest, rfl, rfl⟩))
  refine .inr (.inr (.inr ?_))
  match rest with
  | [] => exact .inl ⟨o, [], hn, rfl, by decide, by cases o <;> first | rfl | exact absurd rfl hn⟩
  | [t1] =>
    exact .inl ⟨o, [t1], hn, rfl, by simp, by cases o <;> first | rfl | exact absurd rfl hn⟩
  | [t1, t2] =>
    exact .inl ⟨o, [t1, t2], hn, rfl, by simp, by cases o <;> first | rfl | exact absurd rfl hn⟩
  | t1 :: t2 :: t3 :: rest =>
    exact .inr ⟨o, t1, t2, t3, rest, hn, rfl, decode_frame o t1 t2 t3 rest⟩

end Sys2Proof
end

