-- ==== Sys2Proof/Laws/State.lean ====
section
/-! SUPPORT. What each named update of State leaves in each field. -/

namespace Sys2Proof.Machine

section Raise
variable (f : Fault) (s : State)
@[simp] theorem State.raise_pc : (s.raise f).pc = s.pc := rfl
@[simp] theorem State.raise_regs : (s.raise f).regs = s.regs := rfl
@[simp] theorem State.raise_mem : (s.raise f).mem = s.mem := rfl
@[simp] theorem State.raise_ctl : (s.raise f).ctl = s.ctl := rfl
@[simp] theorem State.raise_status : (s.raise f).status = .faulted f := rfl
@[simp] theorem State.raise_program : (s.raise f).program = s.program := rfl
@[simp] theorem State.raise_traceEnable : (s.raise f).traceEnable = s.traceEnable := rfl
@[simp] theorem State.raise_trace : (s.raise f).trace = s.trace := rfl
end Raise

section Halt
variable (s : State)
@[simp] theorem State.halt_pc : s.halt.pc = s.pc := rfl
@[simp] theorem State.halt_regs : s.halt.regs = s.regs := rfl
@[simp] theorem State.halt_mem : s.halt.mem = s.mem := rfl
@[simp] theorem State.halt_ctl : s.halt.ctl = s.ctl := rfl
@[simp] theorem State.halt_status : s.halt.status = .halted := rfl
@[simp] theorem State.halt_program : s.halt.program = s.program := rfl
@[simp] theorem State.halt_traceEnable : s.halt.traceEnable = s.traceEnable := rfl
@[simp] theorem State.halt_trace : s.halt.trace = ⟨s.regs, s.mem, s.ctl, true⟩ :: s.trace := rfl
end Halt

section EmitStep
variable (s : State)
@[simp] theorem State.emitStep_pc : s.emitStep.pc = s.pc := by unfold State.emitStep; split <;> rfl
@[simp] theorem State.emitStep_regs : s.emitStep.regs = s.regs := by
  unfold State.emitStep; split <;> rfl
@[simp] theorem State.emitStep_mem : s.emitStep.mem = s.mem := by
  unfold State.emitStep; split <;> rfl
@[simp] theorem State.emitStep_ctl : s.emitStep.ctl = s.ctl := by
  unfold State.emitStep; split <;> rfl
@[simp] theorem State.emitStep_status : s.emitStep.status = s.status := by
  unfold State.emitStep; split <;> rfl
@[simp] theorem State.emitStep_program : s.emitStep.program = s.program := by
  unfold State.emitStep; split <;> rfl
@[simp] theorem State.emitStep_traceEnable : s.emitStep.traceEnable = s.traceEnable := by
  unfold State.emitStep; split <;> rfl
theorem State.emitStep_trace : s.emitStep.trace =
    if s.traceEnable then ⟨s.regs, s.mem, s.ctl, false⟩ :: s.trace else s.trace := by
  unfold State.emitStep; split <;> rfl
end EmitStep

section Complete
variable (c : Control) (epc : Word) (s : State)
@[simp] theorem State.complete_pc : (s.complete c epc).pc = epc + 4 := State.emitStep_pc _
@[simp] theorem State.complete_regs : (s.complete c epc).regs = s.regs := State.emitStep_regs _
@[simp] theorem State.complete_mem : (s.complete c epc).mem = s.mem := State.emitStep_mem _
@[simp] theorem State.complete_ctl : (s.complete c epc).ctl = c := State.emitStep_ctl _
@[simp] theorem State.complete_status : (s.complete c epc).status = s.status :=
  State.emitStep_status _
@[simp] theorem State.complete_program : (s.complete c epc).program = s.program :=
  State.emitStep_program _
@[simp] theorem State.complete_traceEnable : (s.complete c epc).traceEnable = s.traceEnable :=
  State.emitStep_traceEnable _
theorem State.complete_trace : (s.complete c epc).trace =
    if s.traceEnable then ⟨s.regs, s.mem, c, false⟩ :: s.trace else s.trace :=
  State.emitStep_trace _
end Complete

section Reset
variable (s : State)
@[simp] theorem State.hostReset_program : s.hostReset.program = s.program := rfl
@[simp] theorem State.hostReset_traceEnable : s.hostReset.traceEnable = s.traceEnable := rfl
@[simp] theorem State.hostReset_status : s.hostReset.status = .running := rfl
@[simp] theorem State.hostReset_pc : s.hostReset.pc = 0 := rfl
@[simp] theorem State.hostReset_ctl : s.hostReset.ctl = Control.none := rfl
end Reset

end Sys2Proof.Machine
end

