-- ==== Sys2Proof/Laws/Memory.lean ====
section
/-! SUPPORT. Data memory: reading after writing, and the canonical form. -/

namespace Sys2Proof.Machine

theorem cellsRead_consCell (i : Nat) (v : Word) (rest : List (Nat × Word)) (k : Nat)
    (h : cellsRead rest i = unlistedWord) :
    cellsRead (consCell i v rest) k = if i = k then v else cellsRead rest k := by
  unfold consCell
  split
  · rename_i hv
    split
    · rename_i hk
      rw [← hk, h, hv]
    · rfl
  · rfl

theorem cellsRead_below (cells : List (Nat × Word)) (i : Nat) (h : ∀ c ∈ cells, i < c.1) :
    cellsRead cells i = unlistedWord := by
  induction cells with
  | nil => rfl
  | cons c rest ih =>
    have hc := h c (by simp)
    simp only [cellsRead]
    rw [if_neg (by omega)]
    exact ih fun x hx => h x (by simp [hx])

/-- Reading after writing, on a list with rising indices. -/
theorem cellsRead_cellsWrite (cells : List (Nat × Word)) (i k : Nat) (v : Word)
    (h : cells.Pairwise fun a b => a.1 < b.1) :
    cellsRead (cellsWrite cells i v) k = if i = k then v else cellsRead cells k := by
  induction cells with
  | nil => exact cellsRead_consCell i v [] k rfl
  | cons c rest ih =>
    obtain ⟨a, w⟩ := c
    have hrest := (List.pairwise_cons.1 h).2
    have ha := (List.pairwise_cons.1 h).1
    simp only [cellsWrite]
    split
    · rename_i hlt
      refine cellsRead_consCell i v _ k (cellsRead_below _ i ?_)
      intro c hc
      rcases List.mem_cons.1 hc with rfl | hc
      · exact hlt
      · exact lt_trans hlt (ha c hc)
    · split
      · rename_i heq
        subst heq
        rw [cellsRead_consCell i v rest k (cellsRead_below rest i ha)]
        simp only [cellsRead]
        split <;> rfl
      · rename_i hne
        simp only [cellsRead, ih hrest]
        split
        · rename_i hak
          subst hak
          rw [if_neg hne]
        · rfl

theorem mem_consCell {i : Nat} {v : Word} {rest : List (Nat × Word)} {c : Nat × Word}
    (h : c ∈ consCell i v rest) : (c = (i, v) ∧ v ≠ unlistedWord) ∨ c ∈ rest := by
  unfold consCell at h
  split at h
  · exact .inr h
  · rename_i hv
    rcases List.mem_cons.1 h with h | h
    · exact .inl ⟨h, hv⟩
    · exact .inr h

theorem pairwise_consCell {i : Nat} {v : Word} {rest : List (Nat × Word)}
    (h : rest.Pairwise fun a b => a.1 < b.1) (hi : ∀ c ∈ rest, i < c.1) :
    (consCell i v rest).Pairwise fun a b => a.1 < b.1 := by
  unfold consCell
  split
  · exact h
  · exact List.pairwise_cons.2 ⟨hi, h⟩

theorem mem_cellsWrite {cells : List (Nat × Word)} {i : Nat} {v : Word} {c : Nat × Word}
    (h : c ∈ cellsWrite cells i v) : (c = (i, v) ∧ v ≠ unlistedWord) ∨ c ∈ cells := by
  induction cells with
  | nil =>
    rcases mem_consCell h with h | h
    · exact .inl h
    · exact .inr h
  | cons b rest ih =>
    obtain ⟨a, w⟩ := b
    simp only [cellsWrite] at h
    split at h
    · exact mem_consCell h
    · split at h
      · rcases mem_consCell h with h | h
        · exact .inl h
        · exact .inr (List.mem_cons_of_mem _ h)
      · rcases List.mem_cons.1 h with h | h
        · exact .inr (h ▸ List.mem_cons_self)
        · rcases ih h with h | h
          · exact .inl h
          · exact .inr (List.mem_cons_of_mem _ h)

theorem pairwise_cellsWrite {cells : List (Nat × Word)} (i : Nat) (v : Word)
    (h : cells.Pairwise fun a b => a.1 < b.1) :
    (cellsWrite cells i v).Pairwise fun a b => a.1 < b.1 := by
  induction cells with
  | nil => exact pairwise_consCell h (by simp)
  | cons b rest ih =>
    obtain ⟨a, w⟩ := b
    have hrest := (List.pairwise_cons.1 h).2
    have ha := (List.pairwise_cons.1 h).1
    simp only [cellsWrite]
    split
    · rename_i hlt
      refine pairwise_consCell h ?_
      intro c hc
      rcases List.mem_cons.1 hc with rfl | hc
      · exact hlt
      · exact lt_trans hlt (ha c hc)
    · split
      · rename_i heq
        subst heq
        exact pairwise_consCell hrest ha
      · rename_i hge hne
        refine List.pairwise_cons.2 ⟨?_, ih hrest⟩
        intro c hc
        rcases mem_cellsWrite hc with ⟨rfl, _⟩ | hc
        · show a < i
          omega
        · exact ha c hc

theorem memory_empty_wf : Memory.wf ⟨[]⟩ := by simp [Memory.wf]

/-- Writing inside the memory keeps the canonical form. -/
theorem Memory.wf_cellsWrite (m : Memory) (i : Nat) (v : Word) (h : m.wf) (hi : i < Config.memWords) :
    Memory.wf ⟨cellsWrite m.cells i v⟩ := by
  refine ⟨pairwise_cellsWrite i v h.1, ?_⟩
  intro c hc
  rcases mem_cellsWrite hc with ⟨rfl, hv⟩ | hc
  · exact ⟨hi, hv⟩
  · exact h.2 c hc

theorem inMemory_iff (idx : Word) : inMemory idx = true ↔ 0 ≤ idx.toInt ∧ idx.toInt < 2000 := by
  unfold inMemory
  rw [Bool.and_eq_true, decide_eq_true_iff, decide_eq_true_iff]
  rfl

/-- A non-negative signed reading is the unsigned one. -/
theorem toNat_of_toInt_nonneg (w : Word) (h : 0 ≤ w.toInt) : (w.toNat : Int) = w.toInt := by
  have hlt := w.isLt
  rw [BitVec.toInt_eq_toNat_cond] at h ⊢
  split at h <;> rename_i hc
  · rw [if_pos hc]
  · omega

/-- All a read can do. -/
theorem memRead_cases (m : Memory) (idx : Word) :
    (inMemory idx = true ∧ memRead m idx = .ok (m.word idx.toNat)) ∨
    (inMemory idx = false ∧ memRead m idx = .error (.outOfRangeAddress idx.toInt)) := by
  unfold memRead
  cases h : inMemory idx <;> simp

/-- All a write can do. -/
theorem memWrite_cases (m : Memory) (idx v : Word) :
    (inMemory idx = true ∧ memWrite m idx v = .ok ⟨cellsWrite m.cells idx.toNat v⟩) ∨
    (inMemory idx = false ∧ memWrite m idx v = .error (.outOfRangeAddress idx.toInt)) := by
  unfold memWrite
  cases h : inMemory idx <;> simp

theorem memWrite_wf {m m' : Memory} {idx v : Word} (hm : m.wf) (h : memWrite m idx v = .ok m') :
    m'.wf := by
  rcases memWrite_cases m idx v with ⟨hin, hw⟩ | ⟨_, hw⟩
  · rw [hw] at h
    cases h
    have hi := (inMemory_iff idx).1 hin
    have := toNat_of_toInt_nonneg idx hi.1
    exact m.wf_cellsWrite idx.toNat v hm (by unfold Config.memWords; omega)
  · rw [hw] at h
    cases h

end Sys2Proof.Machine
end

