-- ==== Sys2Proof/Laws/Registers.lean ====
section
/-! SUPPORT. The register file: reading after writing, and what the write-back port can do. -/

namespace Sys2Proof.Machine

@[simp] theorem RegFile.read_zero (f : RegFile) : f.read .zero = 0 := rfl

@[simp] theorem RegFile.write_zero (f : RegFile) (v : Word) : f.write .zero v = f := rfl

theorem RegFile.read_write_same (f : RegFile) (r : Reg) (v : Word) (h : r ≠ .zero) :
    (f.write r v).read r = v := by
  cases r <;> first | rfl | exact absurd rfl h

theorem RegFile.read_write_other (f : RegFile) (r r' : Reg) (v : Word) (h : r ≠ r') :
    (f.write r v).read r' = f.read r' := by
  cases r <;> first
    | rfl
    | (cases r' <;> first | rfl | exact absurd rfl h)

/-- Whatever is written back, only the register the destination names can change, and only if writable. -/
theorem writeBack_frame (dest : Option Operand) (value : Option Word) (f : RegFile) (r : Reg)
    (h : ¬ (dest = some (.reg r) ∧ r ≠ .zero)) : (writeBack dest value f).read r = f.read r := by
  rcases dest with _ | d
  · rfl
  cases d with
  | lit _ => rfl
  | malformed _ => rfl
  | reg r' =>
    cases value with
    | none => rfl
    | some v =>
      by_cases hr : r' = r
      · subst hr
        have hz : r' = .zero := by
          by_contra hz
          exact h ⟨rfl, hz⟩
        subst hz
        rfl
      · exact RegFile.read_write_other f r' r v hr

/-- The destination receives the value. -/
theorem writeBack_same (r : Reg) (v : Word) (f : RegFile) (h : r ≠ .zero) :
    (writeBack (some (.reg r)) (some v) f).read r = v := RegFile.read_write_same f r v h

@[simp] theorem writeBack_none (value : Option Word) (f : RegFile) : writeBack none value f = f := rfl

theorem writeBack_read (d : Operand) (v : Word) (f : RegFile) (r : Reg) :
    (writeBack (some d) (some v) f).read r =
      if d = .reg r ∧ r ≠ .zero then v else f.read r := by
  split
  · rename_i h
    obtain ⟨rfl, hz⟩ := h
    exact writeBack_same r v f hz
  · rename_i h
    refine writeBack_frame _ _ f r ?_
    rintro ⟨hd, hz⟩
    exact h ⟨Option.some.inj hd, hz⟩

end Sys2Proof.Machine
end

