-- ==== Sys2Proof/Laws/Engine.lean ====
section
/-! SUPPORT. What each shared operation of the engine can do, said once. -/

namespace Sys2Proof.Machine

/-! ### The resolver -/

/-- All the resolver can do. -/
theorem resolve_cases (s : State) (slot : Nat) (o : Operand) :
    (∃ v, resolve s slot o = .ok v) ∨
    (∃ t, o = .malformed t ∧
      resolve s slot o = .error (.malformedOperand t (s.pc.toInt + slot))) := by
  cases o with
  | reg r => exact .inl ⟨_, rfl⟩
  | lit v => exact .inl ⟨_, rfl⟩
  | malformed t => exact .inr ⟨t, rfl, rfl⟩

/-- All the resolution of a frame can do: the three values, or the fault of the first malformed operand. -/
theorem resolveAll_cases (s : State) (d s1 s2 : Operand) :
    (∃ v, resolve s 1 d = .ok v.d ∧ resolve s 2 s1 = .ok v.s1 ∧ resolve s 3 s2 = .ok v.s2 ∧
      resolveAll s d s1 s2 = .ok v) ∨
    (∃ t, d = .malformed t ∧
      resolveAll s d s1 s2 = .error (.malformedOperand t (s.pc.toInt + 1))) ∨
    (∃ t v, resolve s 1 d = .ok v ∧ s1 = .malformed t ∧
      resolveAll s d s1 s2 = .error (.malformedOperand t (s.pc.toInt + 2))) ∨
    (∃ t v w, resolve s 1 d = .ok v ∧ resolve s 2 s1 = .ok w ∧ s2 = .malformed t ∧
      resolveAll s d s1 s2 = .error (.malformedOperand t (s.pc.toInt + 3))) := by
  unfold resolveAll
  rcases resolve_cases s 1 d with ⟨v, hv⟩ | ⟨t, rfl, ht⟩
  · rcases resolve_cases s 2 s1 with ⟨w, hw⟩ | ⟨t, rfl, ht⟩
    · rcases resolve_cases s 3 s2 with ⟨x, hx⟩ | ⟨t, rfl, ht⟩
      · exact .inl ⟨⟨v, w, x⟩, hv, hw, hx, by rw [hv, hw, hx]⟩
      · exact .inr (.inr (.inr ⟨t, v, w, hv, hw, rfl, by rw [hv, hw, ht]; rfl⟩))
    · exact .inr (.inr (.inl ⟨t, v, hv, rfl, by rw [hv, ht]; rfl⟩))
  · exact .inr (.inl ⟨t, rfl, by rw [ht]; rfl⟩)

/-! ### The memory step -/

/-- All the memory step can do: it leaves memory alone, writes one word of it, or faults out of range. -/
theorem memoryStep_cases (c : Control) (out : AluOutput) (m : Memory) :
    (∃ value, memoryStep c out m = .ok (m, value)) ∨
    (∃ idx v, c.memWrite = true ∧ out.index = some idx ∧ out.result = some v ∧
      inMemory idx = true ∧
      memoryStep c out m = .ok (⟨cellsWrite m.cells idx.toNat v⟩, none)) ∨
    (∃ idx, inMemory idx = false ∧ (c.memWrite = true ∨ c.memRead = true) ∧
      memoryStep c out m = .error (.outOfRangeAddress idx.toInt)) := by
  unfold memoryStep
  cases hw : c.memWrite with
  | true =>
    rw [if_pos rfl]
    cases hi : out.index with
    | none => exact .inl ⟨_, rfl⟩
    | some idx =>
      cases hr : out.result with
      | none => exact .inl ⟨_, rfl⟩
      | some v =>
        rcases memWrite_cases m idx v with ⟨hin, he⟩ | ⟨hin, he⟩
        · exact .inr (.inl ⟨idx, v, rfl, rfl, rfl, hin, by simp only [he]⟩)
        · exact .inr (.inr ⟨idx, hin, .inl rfl, by simp only [he]⟩)
  | false =>
    rw [if_neg (by decide)]
    cases hm : c.memRead with
    | false => exact .inl ⟨_, rfl⟩
    | true =>
      rw [if_pos rfl]
      cases hr : out.result with
      | none => exact .inl ⟨_, rfl⟩
      | some idx =>
        rcases memRead_cases m idx with ⟨-, he⟩ | ⟨hin, he⟩
        · exact .inl ⟨some (m.word idx.toNat), by simp only [he]⟩
        · exact .inr (.inr ⟨idx, hin, .inr rfl, by simp only [he]⟩)

/-! ### The step of a four-token frame -/

/-- The step of a frame always has a next state. -/
theorem executeFrame_next (c : Control) (dest : Option Operand) (d s1 s2 : Operand) (s : State) :
    ∃ t, executeFrame c dest d s1 s2 s = .next t := by
  unfold executeFrame
  split
  · exact ⟨_, rfl⟩
  · split <;> exact ⟨_, rfl⟩

/-- All the step of a frame can do: take the resolver's fault, take the load/store unit's fault, or
complete. -/
theorem executeFrame_cases {c : Control} {dest : Option Operand} {d s1 s2 : Operand} {s t : State}
    (h : executeFrame c dest d s1 s2 s = .next t) :
    (∃ f, resolveAll s d s1 s2 = .error f ∧ t = s.raise f) ∨
    (∃ v f, resolveAll s d s1 s2 = .ok v ∧
      memoryStep c (alu c.aluClass v.d v.s1 v.s2 s.pc) s.mem = .error f ∧ t = s.raise f) ∨
    (∃ v m value, resolveAll s d s1 s2 = .ok v ∧
      memoryStep c (alu c.aluClass v.d v.s1 v.s2 s.pc) s.mem = .ok (m, value) ∧
      t = State.complete c (alu c.aluClass v.d v.s1 v.s2 s.pc).epc
        { s with mem := m, regs := writeBack dest value s.regs }) := by
  unfold executeFrame at h
  split at h
  · rename_i f hf
    exact .inl ⟨f, hf, (Host.Outcome.next.inj h).symm⟩
  · rename_i v hv
    split at h
    · rename_i f hf
      exact .inr (.inl ⟨v, f, hv, hf, (Host.Outcome.next.inj h).symm⟩)
    · rename_i m value hm
      exact .inr (.inr ⟨v, m, value, hv, hm, (Host.Outcome.next.inj h).symm⟩)

theorem executeFrame_error {c : Control} {dest : Option Operand} {d s1 s2 : Operand} {s : State}
    {f : Fault} (h : resolveAll s d s1 s2 = .error f) :
    executeFrame c dest d s1 s2 s = .next (s.raise f) := by
  unfold executeFrame
  rw [h]

theorem executeFrame_memory_error {c : Control} {dest : Option Operand} {d s1 s2 : Operand}
    {s : State} {v : OperandValues} {f : Fault} (h : resolveAll s d s1 s2 = .ok v)
    (hm : memoryStep c (alu c.aluClass v.d v.s1 v.s2 s.pc) s.mem = .error f) :
    executeFrame c dest d s1 s2 s = .next (s.raise f) := by
  unfold executeFrame
  rw [h]
  dsimp only
  rw [hm]

theorem executeFrame_ok {c : Control} {dest : Option Operand} {d s1 s2 : Operand} {s : State}
    {v : OperandValues} {m : Memory} {value : Option Word} (h : resolveAll s d s1 s2 = .ok v)
    (hm : memoryStep c (alu c.aluClass v.d v.s1 v.s2 s.pc) s.mem = .ok (m, value)) :
    executeFrame c dest d s1 s2 s =
      .next (State.complete c (alu c.aluClass v.d v.s1 v.s2 s.pc).epc
        { s with mem := m, regs := writeBack dest value s.regs }) := by
  unfold executeFrame
  rw [h]
  dsimp only
  rw [hm]

/-! ### `exec` over the twelve opcodes at once -/

/-- The destination of R126: the destination token, or `NOREG` for `j`, `beq`, `sw` and `nop`. -/
def destOf (o : Opcode) (d : Operand) : Option Operand :=
  match o with
  | .j | .beq | .sw | .nop => none
  | .add | .addi | .sub | .lw | .sll | .srl | .mul | .and | .or => some d

/-- Each of the twelve `F4` instructions is the step of its frame. -/
theorem exec_instr (o : Opcode) (ho : o ≠ .nop) (d s1 s2 : Operand) (s : State) :
    exec (o.instr d s1 s2) s =
      executeFrame (Control.ofInstr (o.instr d s1 s2)) (destOf o d) d s1 s2 s := by
  cases o <;> first | rfl | exact absurd rfl ho

/-- Every instruction is `nop`, an unrecognised opcode, or one of the twelve. -/
theorem instr_cases (i : Instr) :
    i = .nop ∨ (∃ t, i = .unrecognised t) ∨
      ∃ o d s1 s2, o ≠ Opcode.nop ∧ i = o.instr d s1 s2 := by
  cases i with
  | nop => exact .inl rfl
  | unrecognised t => exact .inr (.inl ⟨t, rfl⟩)
  | j d s1 s2 => exact .inr (.inr ⟨.j, d, s1, s2, by decide, rfl⟩)
  | beq d s1 s2 => exact .inr (.inr ⟨.beq, d, s1, s2, by decide, rfl⟩)
  | add d s1 s2 => exact .inr (.inr ⟨.add, d, s1, s2, by decide, rfl⟩)
  | addi d s1 s2 => exact .inr (.inr ⟨.addi, d, s1, s2, by decide, rfl⟩)
  | sub d s1 s2 => exact .inr (.inr ⟨.sub, d, s1, s2, by decide, rfl⟩)
  | sw d s1 s2 => exact .inr (.inr ⟨.sw, d, s1, s2, by decide, rfl⟩)
  | lw d s1 s2 => exact .inr (.inr ⟨.lw, d, s1, s2, by decide, rfl⟩)
  | sll d s1 s2 => exact .inr (.inr ⟨.sll, d, s1, s2, by decide, rfl⟩)
  | srl d s1 s2 => exact .inr (.inr ⟨.srl, d, s1, s2, by decide, rfl⟩)
  | mul d s1 s2 => exact .inr (.inr ⟨.mul, d, s1, s2, by decide, rfl⟩)
  | and d s1 s2 => exact .inr (.inr ⟨.and, d, s1, s2, by decide, rfl⟩)
  | or d s1 s2 => exact .inr (.inr ⟨.or, d, s1, s2, by decide, rfl⟩)

theorem exec_nop (s : State) :
    exec .nop s = .next (State.complete (Control.ofInstr .nop) (s.pc - 3) s) := rfl

theorem exec_unrecognised (t : Token) (s : State) :
    exec (.unrecognised t) s = .next (State.complete Control.none s.pc s) := rfl

end Sys2Proof.Machine
end

