-- ==== Sys2Proof/Laws/PerInstr.lean ====
section
/-! SUPPORT. The family `FrameShape` (`30_encoding.md` R71, R72): the encoding of every instruction is its
opcode token with three operand tokens after it, or one token alone for `nop` and an unrecognised opcode. -/

namespace Sys2Proof.Laws.FrameShape

/-- The number of tokens the fetch unit reads for an instruction. -/
def tokens : Instr → Nat
  | .j _ _ _ | .beq _ _ _ | .add _ _ _ | .addi _ _ _ | .sub _ _ _ | .sw _ _ _ => 4
  | .lw _ _ _ | .sll _ _ _ | .srl _ _ _ | .mul _ _ _ | .and _ _ _ | .or _ _ _ => 4
  | .nop | .unrecognised _ => 1

/-- The encoding of an instruction has as many tokens as the fetch unit reads for it. -/
def Statement (i : Instr) : Prop := (encode i).length = tokens i

theorem j (d s1 s2 : Operand) : Statement (.j d s1 s2) := rfl
theorem beq (d s1 s2 : Operand) : Statement (.beq d s1 s2) := rfl
theorem add (d s1 s2 : Operand) : Statement (.add d s1 s2) := rfl
theorem addi (d s1 s2 : Operand) : Statement (.addi d s1 s2) := rfl
theorem sub (d s1 s2 : Operand) : Statement (.sub d s1 s2) := rfl
theorem sw (d s1 s2 : Operand) : Statement (.sw d s1 s2) := rfl
theorem lw (d s1 s2 : Operand) : Statement (.lw d s1 s2) := rfl
theorem sll (d s1 s2 : Operand) : Statement (.sll d s1 s2) := rfl
theorem srl (d s1 s2 : Operand) : Statement (.srl d s1 s2) := rfl
theorem mul (d s1 s2 : Operand) : Statement (.mul d s1 s2) := rfl
theorem and (d s1 s2 : Operand) : Statement (.and d s1 s2) := rfl
theorem or (d s1 s2 : Operand) : Statement (.or d s1 s2) := rfl
theorem nop : Statement .nop := rfl
theorem unrecognised (t : Token) : Statement (.unrecognised t) := rfl

end Sys2Proof.Laws.FrameShape
end

