-- ==== Sys2Proof/Laws/Step.lean ====
section
/-! SUPPORT. What the fetch unit and a step can do, said once. -/

namespace Sys2Proof.Machine

theorem State.tok_eq_some {s : State} {i : Int} {t : Token} :
    s.tok i = some t ↔ 0 ≤ i ∧ s.program[i.toNat]? = some t := by
  unfold State.tok
  split
  · rename_i h
    simp [h]
  · rename_i h
    simp [h]

/-- The stream from an index on: the token there, then the stream from the next index on. -/
theorem drop_of_getElem? {l : List Token} {k : Nat} {t : Token} (h : l[k]? = some t) :
    l.drop k = t :: l.drop (k + 1) := by
  obtain ⟨hk, rfl⟩ := List.getElem?_eq_some_iff.1 h
  exact List.drop_eq_getElem_cons hk

/-- The tokens at and after the pc, as the fetch unit reads them. -/
theorem drop_of_tok {s : State} {i : Int} {t : Token} (h : s.tok i = some t) :
    s.program.drop i.toNat = t :: s.program.drop (i + 1).toNat := by
  obtain ⟨h0, ht⟩ := State.tok_eq_some.1 h
  rw [show (i + 1).toNat = i.toNat + 1 by omega]
  exact drop_of_getElem? ht

/-- All the fetch unit can do. -/
theorem fetch_cases (s : State) :
    (s.pc.toInt < 0 ∧ fetch s = .fault (.pcOutOfRange s.pc.toInt)) ∨
    (0 ≤ s.pc.toInt ∧ decode (s.program.drop s.pc.toInt.toNat) = .noToken ∧
      (s.program.length : Int) ≤ s.pc.toInt ∧ fetch s = .pastEnd) ∨
    (0 ≤ s.pc.toInt ∧ decode (s.program.drop s.pc.toInt.toNat) = .truncated ∧
      s.pc.toInt < (s.program.length : Int) ∧ (s.program.length : Int) ≤ s.pc.toInt + 3 ∧
      fetch s = .fault (.truncatedFrame s.pc.toInt)) ∨
    (0 ≤ s.pc.toInt ∧ s.pc.toInt < (s.program.length : Int) ∧
      ∃ i, decode (s.program.drop s.pc.toInt.toNat) = .instr i ∧ fetch s = .instr i) := by
  unfold fetch
  by_cases hneg : s.pc.toInt < 0
  · exact .inl ⟨hneg, by rw [if_pos hneg]⟩
  refine .inr ?_
  rw [if_neg hneg]
  have hlen : (s.program.drop s.pc.toInt.toNat).length = s.program.length - s.pc.toInt.toNat :=
    List.length_drop
  rcases decode_cases (s.program.drop s.pc.toInt.toNat) with ⟨ht, hd⟩ | ⟨op, rest, ht, -, hd⟩ |
    ⟨rest, ht, hd⟩ | ⟨o, rest, -, ht, hr, hd⟩ | ⟨o, t1, t2, t3, rest, -, ht, hd⟩ <;>
    rw [ht] at hlen <;> simp only [List.length_nil, List.length_cons] at hlen <;> rw [hd]
  · exact .inl ⟨by omega, rfl, by omega, rfl⟩
  · exact .inr (.inr ⟨by omega, by omega, _, rfl, rfl⟩)
  · exact .inr (.inr ⟨by omega, by omega, _, rfl, rfl⟩)
  · exact .inr (.inl ⟨by omega, rfl, by omega, by omega, rfl⟩)
  · exact .inr (.inr ⟨by omega, by omega, _, rfl, rfl⟩)

theorem step_halted {s : State} (h : s.status = .halted) : step s = .next s := by
  unfold step
  rw [h]

theorem step_faulted {s : State} {f : Fault} (h : s.status = .faulted f) : step s = .fault f := by
  unfold step
  rw [h]

/-- All a step that has a next state can do. -/
theorem step_cases {s t : State} (h : step s = .next t) :
    (s.status = .halted ∧ t = s) ∨
    (s.status = .running ∧ fetch s = .pastEnd ∧ t = s.halt) ∨
    (s.status = .running ∧ ∃ f, fetch s = .fault f ∧ t = s.raise f) ∨
    (s.status = .running ∧ ∃ i, fetch s = .instr i ∧ exec i s = .next t) := by
  unfold step at h
  split at h
  · rename_i hs
    exact .inl ⟨hs, (Host.Outcome.next.inj h).symm⟩
  · cases h
  · rename_i hs
    refine .inr ?_
    split at h
    · rename_i hf
      exact .inl ⟨hs, hf, (Host.Outcome.next.inj h).symm⟩
    · rename_i f hf
      exact .inr (.inl ⟨hs, f, hf, (Host.Outcome.next.inj h).symm⟩)
    · rename_i i hf
      exact .inr (.inr ⟨hs, i, hf, h⟩)

/-- Every instruction has a next state. -/
theorem exec_next (i : Instr) (s : State) : ∃ t, exec i s = .next t := by
  rcases instr_cases i with rfl | ⟨t, rfl⟩ | ⟨o, d, s1, s2, ho, rfl⟩
  · exact ⟨_, exec_nop s⟩
  · exact ⟨_, exec_unrecognised t s⟩
  · rw [exec_instr o ho]
    exact executeFrame_next _ _ _ _ _ _

end Sys2Proof.Machine
end

