-- ==== Sys2Proof/Laws/Run.lean ====
section
/-! SUPPORT. Runs of several steps, and the induction over them packaged once. -/

namespace Sys2Proof.Machine

theorem run_succ_of_next {s t : State} (n : Nat) (h : step s = .next t) :
    run (n + 1) s = run n t := by rw [run, h]

theorem run_succ_of_fault {s : State} {f : Fault} (n : Nat) (h : step s = .fault f) :
    run (n + 1) s = .fault f := by rw [run, h]

theorem run_succ_of_refused {s : State} {r : Refusal} (n : Nat) (h : step s = .refused r) :
    run (n + 1) s = .refused r := by rw [run, h]

/-- The first step of a run that has a next state. -/
theorem run_succ_next {s t : State} {n : Nat} (h : run (n + 1) s = .next t) :
    ∃ u, step s = .next u ∧ run n u = .next t := by
  rcases hs : step s with u | f | r
  · rw [run_succ_of_next n hs] at h
    exact ⟨u, rfl, h⟩
  · rw [run_succ_of_fault n hs] at h
    cases h
  · rw [run_succ_of_refused n hs] at h
    cases h

/-- What every step keeps, every run keeps. -/
theorem run_keeps {P : State → Prop} (hstep : ∀ s t, P s → step s = .next t → P t) {n : Nat}
    {s t : State} (hs : P s) (h : run n s = .next t) : P t := by
  induction n generalizing s with
  | zero => exact Host.Outcome.next.inj h ▸ hs
  | succ n ih =>
    obtain ⟨u, hu, hr⟩ := run_succ_next h
    exact ih (hstep s u hs hu) hr

/-- The host's `Core.run` of this machine is `run`. -/
theorem core_run_eq (n : Nat) (s : State) : core.run n s = run n s := by
  induction n generalizing s with
  | zero => rfl
  | succ n ih =>
    have h := Host.Core.run.eq_2 core s n
    rcases hs : step s with t | f | r
    · rw [show core.step s = .next t from hs] at h
      rw [run_succ_of_next n hs, ← ih t]
      exact h
    · rw [show core.step s = .fault f from hs] at h
      rw [run_succ_of_fault n hs]
      exact h
    · rw [show core.step s = .refused r from hs] at h
      rw [run_succ_of_refused n hs]
      exact h

end Sys2Proof.Machine
end

