-- ==== Sys2Proof/Tests/Slice0.lean ====
section
/-! SUPPORT. The model's own tests. Expected results are the spec's: the vectors S<n> and V<n> of
`95_test_vectors.md`, or the rule named. The witnesses at the end meet the hypotheses of the statements in
Certificates/Slice0/Obligations.lean. -/

open Sys2Proof Sys2Proof.Machine

namespace Sys2Proof.Tests

/-! ### Helpers -/

/-- A token stream, one space between two tokens. -/
def toks (text : String) : List Token := splitAtSpaces text.toList

/-- A running machine at token index `p`, tracing on, with the stream at `p`, registers and memory words. -/
def start (p : Nat) (text : String) (regs : List (Reg × Int)) (mem : List (Nat × Int)) : State :=
  { State.resetWith (List.replicate p [] ++ toks text) true with
    pc := BitVec.ofNat 32 p
    regs := regs.foldl (fun f x => f.write x.1 (wordOfInt x.2)) {}
    mem := ⟨mem.foldl (fun c x => cellsWrite c x.1 (wordOfInt x.2)) []⟩ }

/-- The next state of an outcome, if it is one. -/
def nextOf : Host.Outcome State Fault Refusal → Option State
  | .next t => some t
  | .fault _ => none
  | .refused _ => none

/-- The state after one step; the state itself where there is none (no test uses that case). -/
def after (s : State) : State := (nextOf (step s)).getD s

/-- The pc after one step of a machine that is running still, the register and the word asked for. -/
def seen (s : State) (r : Reg) (k : Nat) : Option (Int × Int × Int) :=
  match nextOf (step s) with
  | some t =>
    if t.status = .running then some (t.pc.toInt, (t.readReg r).toInt, (t.word k).toInt) else none
  | none => none

/-- The run status after one step. -/
def statusSeen (s : State) : Option Status := (nextOf (step s)).map State.status

/-- The control triples and terminal marks on the trace port after one step. -/
def traceSeen (s : State) : Option (List ((Nat × Nat × Nat) × Bool)) :=
  (nextOf (step s)).map fun t => t.trace.map fun x => (x.ctl.triple, x.terminal)

/-! ### Well-formedness: what it refuses -/

/-- A literal, a register name and an over-long register name called malformed (R76, R22). -/
theorem test_wf_refuses_operand :
    Operand.wf (.malformed ['5']) = false ∧ Operand.wf (.malformed ['$', 't', '0']) = false ∧
    Operand.wf (.malformed ['-', '0']) = false ∧ Operand.wf (.malformed ['$', 't', '1', '0']) = true ∧
    Operand.wf (.malformed ['+', '5']) = true ∧ Operand.wf (.malformed []) = true := by decide

/-- An ill-formed operand in each slot of each four-token instruction. -/
theorem test_wf_refuses_frame :
    ∀ mk ∈ [Instr.j, .beq, .add, .addi, .sub, .sw, .lw, .sll, .srl, .mul, .and, .or],
      Instr.wf (mk (.malformed ['5']) (.lit 0) (.lit 0)) = false ∧
      Instr.wf (mk (.lit 0) (.malformed ['5']) (.lit 0)) = false ∧
      Instr.wf (mk (.lit 0) (.lit 0) (.malformed ['5'])) = false ∧
      Instr.wf (mk (.reg .t0) (.lit 0) (.malformed ['x'])) = true := by decide

/-- One of the thirteen opcode tokens called unrecognised (R82). -/
theorem test_wf_refuses_opcode :
    ∀ o ∈ Opcode.all, Instr.wf (.unrecognised o.token) = false := by decide

/-! ### Decoding: frames written out from R71, R72, R80 -/

theorem test_decode_j :
    decode (toks "j $t0 0 0") = .instr (.j (.reg .t0) (.lit 0) (.lit 0)) := by decide
theorem test_decode_beq :
    decode (toks "beq $t0 $t1 -8") = .instr (.beq (.reg .t0) (.reg .t1) (.lit (-8))) := by decide
theorem test_decode_add :
    decode (toks "add 5 $t1 $t2") = .instr (.add (.lit 5) (.reg .t1) (.reg .t2)) := by decide
theorem test_decode_addi :
    decode (toks "addi $t0 $zero -2147483648") =
      .instr (.addi (.reg .t0) (.reg .zero) (.lit (-2147483648))) := by decide
theorem test_decode_sub :
    decode (toks "sub $v0 $v1 $a0") = .instr (.sub (.reg .v0) (.reg .v1) (.reg .a0)) := by decide
theorem test_decode_sw :
    decode (toks "sw 42 $zero 9") = .instr (.sw (.lit 42) (.reg .zero) (.lit 9)) := by decide
theorem test_decode_lw :
    decode (toks "lw $t1 100 $s7") = .instr (.lw (.reg .t1) (.lit 100) (.reg .s7)) := by decide
theorem test_decode_sll :
    decode (toks "sll $t9 $a3 2147483647") =
      .instr (.sll (.reg .t9) (.reg .a3) (.lit 2147483647)) := by decide
theorem test_decode_srl :
    decode (toks "srl $t0 $t1 007") = .instr (.srl (.reg .t0) (.reg .t1) (.lit 7)) := by decide
theorem test_decode_mul :
    decode (toks "mul $s0 $s1 $s2") = .instr (.mul (.reg .s0) (.reg .s1) (.reg .s2)) := by decide
theorem test_decode_and :
    decode (toks "and $t3 $t4 -0") = .instr (.and (.reg .t3) (.reg .t4) (.lit 0)) := by decide
theorem test_decode_or :
    decode (toks "or $t5 $t6 $t7 nop") = .instr (.or (.reg .t5) (.reg .t6) (.reg .t7)) := by decide
theorem test_decode_nop : decode (toks "nop add 1 2 3") = .instr .nop := by decide

/-- Case, register names, literals, the empty token and unimplemented mnemonics (R82). -/
theorem test_decode_unrecognised :
    ∀ t ∈ [['N', 'o', 'p'], ['$', 't', '0'], ['8'], [], ['m', 'u', 'l', 't'], ['b', 'n', 'e']],
      decode [t, ['1']] = .instr (.unrecognised t) := by decide

/-- Tokens that are neither register name nor literal (R23, R76, R77). -/
theorem test_decode_malformed :
    ∀ t ∈ ["$sp", "$0", "$T0", "t0", "2147483648", "-2147483649", "-", "+5", "0x10", "4($t1)", "1_0"],
      Operand.ofToken t.toList = .malformed t.toList := by decide

/-- A frame cut short, and no token at all (R63, R132). -/
theorem test_decode_short :
    decode (toks "add $t0 $t1") = .truncated ∧ decode [['j']] = .truncated ∧ decode [] = .noToken := by
  decide

/-- The encoder's tokens, written out from R72 and R76. -/
theorem test_encode :
    encode (.lw (.reg .t1) (.lit (-2147483648)) (.lit 2147483647)) =
      toks "lw $t1 -2147483648 2147483647" ∧
    encode (.sw (.lit 0) (.malformed ['x']) (.reg .zero)) = toks "sw 0 x $zero" ∧
    encode .nop = [['n', 'o', 'p']] := by decide

/-- Frames as numbers (log entry 9): 6A 20 38 are the characters of `j 8`, 6E 6F 70 those of `nop`. -/
theorem test_table_word :
    decodeTableWord 24 0x38206A = some (.j (.lit 8) (.lit 0) (.lit 0)) ∧
    decodeTableWord 24 0x706F6E = some .nop ∧
    decodeTableWord 0 0 = some (.unrecognised []) := by decide

/-- The frame put where the next step fetches is what that step runs. -/
theorem test_with_fetch_word :
    (nextOf (step (State.reset.withFetchWord 24 0x38206A))).map (fun t => t.pc.toInt) = some 8 ∧
    (nextOf (step (State.reset.withFetchWord 24 0x706F6E))).map (fun t => t.pc.toInt) = some 1 ∧
    (nextOf (step ((after (start 0 "j -4 0 0" [] [])).withFetchWord 24 0x38206A))).map
      (fun t => t.pc.toInt) = some 8 := by decide

/-! ### One step of each instruction -/

/-- V1, V2. -/
theorem test_j : seen (start 100 "j 8 0 0" [] []) .t0 0 = some (8, 0, 0) ∧
    seen (start 0 "j $t0 0 0" [(.t0, 12)] []) .t0 0 = some (12, 12, 0) := by decide
/-- V7, V8: a negative target. -/
theorem test_j_negative : seen (start 0 "j -4 0 0" [] []) .t0 0 = some (-4, 0, 0) ∧
    seen (start 0 "j -2147483648 0 0" [] []) .t0 0 = some (-2147483648, 0, 0) := by decide
/-- V11, V12: taken and not taken. -/
theorem test_beq :
    seen (start 12 "beq $t0 $t1 8" [(.t0, 5), (.t1, 5)] []) .t0 0 = some (24, 5, 0) ∧
    seen (start 12 "beq $t0 $t1 8" [(.t0, 5), (.t1, 6)] []) .t0 0 = some (16, 5, 0) := by decide
/-- V20, V21: a register displacement, and one that wraps. -/
theorem test_beq_displacement :
    seen (start 4 "beq $t0 $t1 $t2" [(.t2, 16)] []) .t0 0 = some (24, 0, 0) ∧
    seen (start 1 "beq 0 0 2147483647" [] []) .t0 0 = some (-2147483644, 0, 0) := by decide
/-- V33, V34. -/
theorem test_add : seen (start 0 "add $t0 $t0 $t0" [(.t0, 21)] []) .t0 0 = some (4, 42, 0) ∧
    seen (start 0 "add $t0 $t1 1" [(.t1, 2147483647)] []) .t0 0 = some (4, -2147483648, 0) := by decide
/-- V36, V37: discarded results. -/
theorem test_add_discarded : seen (start 0 "add $zero 7 8" [] []) .zero 0 = some (4, 0, 0) ∧
    (after (start 0 "add 5 $t1 $t2" [(.t1, 1), (.t2, 2)] [])).regs = { t1 := 1, t2 := 2 } := by decide
/-- V40, V41. -/
theorem test_addi : seen (start 0 "addi $t0 $zero 100000" [] []) .t0 0 = some (4, 100000, 0) ∧
    seen (start 0 "addi $t0 $t1 -3" [(.t1, 10)] []) .t0 0 = some (4, 7, 0) := by decide
/-- V47, V49. -/
theorem test_sub : seen (start 0 "sub $t0 $t1 $t2" [(.t1, 3), (.t2, 5)] []) .t0 0 = some (4, -2, 0) ∧
    seen (start 0 "sub $t0 $zero $t1" [(.t1, -2147483648)] []) .t0 0 = some (4, -2147483648, 0) := by
  decide
/-- V51, V55. -/
theorem test_mul : seen (start 0 "mul $t0 $t1 $t2" [(.t1, 6), (.t2, -7)] []) .t0 0 = some (4, -42, 0) ∧
    seen (start 0 "mul $t0 $t1 $t1" [(.t1, 2147483647)] []) .t0 0 = some (4, 1, 0) := by decide
/-- V65, V67: the index is not scaled, and a word made 0 again leaves the list. -/
theorem test_sw :
    seen (start 0 "sw $t0 $t1 4" [(.t0, -1), (.t1, 10)] []) .t0 14 = some (4, -1, -1) ∧
    (after (start 0 "sw $zero $zero 0" [] [(0, 7)])).mem = ⟨[]⟩ := by decide
/-- V68, V69: the last word, and one past it. -/
theorem test_sw_bounds : seen (start 0 "sw $t0 $t0 0" [(.t0, 1999)] []) .t0 1999 = some (4, 1999, 1999) ∧
    statusSeen (start 0 "sw $t0 $t0 0" [(.t0, 2000)] []) =
      some (.faulted (.outOfRangeAddress 2000)) := by decide
/-- V73, V64. -/
theorem test_lw : seen (start 0 "lw $t0 $t0 0" [(.t0, 5)] [(5, 99)]) .t0 5 = some (4, 99, 99) ∧
    seen (start 0 "lw $t1 $zero 6" [(.t1, 8)] [(5, 99)]) .t1 6 = some (4, 0, 0) := by decide
/-- V71, V72. -/
theorem test_lw_bounds : statusSeen (start 0 "lw $zero $zero 2000" [] []) =
      some (.faulted (.outOfRangeAddress 2000)) ∧
    statusSeen (start 0 "lw $t0 $t1 1" [(.t1, 2147483647)] []) =
      some (.faulted (.outOfRangeAddress (-2147483648))) := by decide
/-- V85, V89. -/
theorem test_sll : seen (start 0 "sll $t0 $t1 4" [(.t1, -1)] []) .t0 0 = some (4, -16, 0) ∧
    seen (start 0 "sll $t0 $t1 -1" [(.t1, 1)] []) .t0 0 = some (4, -2147483648, 0) := by decide
/-- V90, V92. -/
theorem test_srl : seen (start 0 "srl $t0 $t1 1" [(.t1, -1)] []) .t0 0 = some (4, 2147483647, 0) ∧
    seen (start 0 "srl $t0 $t1 0" [(.t1, -1)] []) .t0 0 = some (4, -1, 0) := by decide
/-- V98, V100. -/
theorem test_and : seen (start 0 "and $t0 $t1 $t2" [(.t1, 12), (.t2, 10)] []) .t0 0 = some (4, 8, 0) ∧
    seen (start 0 "and $t0 $t1 255" [(.t1, -16)] []) .t0 0 = some (4, 240, 0) := by decide
/-- V102, V104. -/
theorem test_or : seen (start 0 "or $t0 $t1 $t2" [(.t1, 12), (.t2, 10)] []) .t0 0 = some (4, 14, 0) ∧
    seen (start 0 "or $t0 $t1 1" [(.t1, -2147483648)] []) .t0 0 = some (4, -2147483647, 0) := by decide
/-- S10, V110: one token, also as the last of the stream, class 7 on the trace port. -/
theorem test_nop : seen (start 10 "nop" [] []) .t0 0 = some (11, 0, 0) ∧
    traceSeen (start 0 "nop" [] []) = some [((7, 0, 0), false)] := by decide
/-- V115, V117. -/
theorem test_unrecognised : seen (start 0 "foo" [] []) .t0 0 = some (4, 0, 0) ∧
    seen (start 0 "foo bar baz qux" [] []) .t0 0 = some (4, 0, 0) := by decide

/-! ### Halt, faults, trace -/

/-- V118 and R132: an empty stream halts at once, with a terminal snapshot of triple (0, 0, 0). -/
theorem test_halt : statusSeen State.reset = some .halted ∧
    traceSeen State.reset = some [((0, 0, 0), true)] ∧
    nextOf (step (after State.reset)) = some (after State.reset) := by decide
/-- V121, V122, V123. -/
theorem test_fault_priority :
    statusSeen (start 0 "add foo $t1" [] []) = some (.faulted (.truncatedFrame 0)) ∧
    statusSeen (start 0 "add foo bar baz" [] []) =
      some (.faulted (.malformedOperand ['f', 'o', 'o'] 1)) ∧
    statusSeen (start 0 "add $t0 bar baz" [] []) =
      some (.faulted (.malformedOperand ['b', 'a', 'r'] 2)) := by decide
/-- V9, V23, V75: unused operands, an untaken branch, and before the index is computed. -/
theorem test_fault_malformed :
    statusSeen (start 4 "j 8 add $t0" [] []) = some (.faulted (.malformedOperand ['a', 'd', 'd'] 6)) ∧
    statusSeen (start 0 "beq 1 2 foo" [] []) = some (.faulted (.malformedOperand ['f', 'o', 'o'] 3)) ∧
    statusSeen (start 0 "lw foo $zero 9999" [] []) =
      some (.faulted (.malformedOperand ['f', 'o', 'o'] 1)) := by decide
/-- V7, V22: the fetch after a negative target; no snapshot for it. -/
theorem test_fault_pc : statusSeen (after (start 0 "beq 0 0 -100" [] [])) =
      some (.faulted (.pcOutOfRange (-96))) ∧
    traceSeen (after (start 0 "beq 0 0 -100" [] [])) = some [((2, 0, 0), false)] := by decide
/-- R212: with tracing off a completed step emits nothing, and the halt still emits. -/
theorem test_trace_off :
    traceSeen (State.boot (toks "nop") false) = some [] ∧
    traceSeen (after (State.boot (toks "nop") false)) = some [((7, 0, 0), true)] := by decide
/-- R65, R15: read-out when stopped, not while running. -/
theorem test_read_out : (start 0 "nop" [] []).readOut = none ∧
    (after (start 0 "sw 1 0 2000" [(.t0, 3)] [(4, 5)])).readOut = some ({ t0 := 3 }, ⟨[(4, 5)]⟩) := by
  decide
/-- R220, R221: what a reset clears and keeps, out of a fault. -/
theorem test_host_reset :
    (after (start 0 "sw 1 0 2000" [(.t0, 3)] [(4, 5)])).hostReset =
      State.boot (toks "sw 1 0 2000") true := by decide

/-! ### Witnesses: states and operands that meet the hypotheses of the statements -/

/-- The outcome `o` is a next state with a run status that satisfies `p`. -/
def stepsTo (o : Host.Outcome State Fault Refusal) (p : Status → Bool) : Bool :=
  match o with
  | .next t => p t.status
  | .fault _ => false
  | .refused _ => false

/-- A faulted status. -/
def isFaulted : Status → Bool
  | .running => false
  | .halted => false
  | .faulted _ => true

/-- A machine stopped by a fault, and one that has halted. -/
def faultedState : State := after (start 4 "lw $t0 $zero 2000" [(.t0, 3)] [(4, 5)])
def haltedState : State := after (State.boot [] true)

/-- `ResolverReadsNameThenLiteral`: both ends of the literal range, one past each, and other forms. -/
theorem witness_literal :
    IsLiteral ['-', '2', '1', '4', '7', '4', '8', '3', '6', '4', '8'] (-2147483648) ∧
    IsLiteral ['2', '1', '4', '7', '4', '8', '3', '6', '4', '7'] 2147483647 ∧
    (∀ r, ['0', '0', '7'] ≠ Reg.name r) ∧ IsLiteral ['0', '0', '7'] 7 :=
  ⟨⟨.inr ⟨_, rfl, ⟨by decide, by simp⟩, by rfl⟩, by omega, by omega⟩,
    ⟨.inl ⟨⟨by decide, by simp⟩, by rfl⟩, by omega, by omega⟩,
    by intro r; cases r <;> decide, ⟨.inl ⟨⟨by decide, by simp⟩, by rfl⟩, by omega, by omega⟩⟩

theorem witness_not_literal :
    (∀ r, ['+', '5'] ≠ Reg.name r) ∧ (∀ n, ¬ IsLiteral ['+', '5'] n) ∧
    (∀ n, ¬ IsLiteral "2147483648".toList n) := by
  refine ⟨by intro r; cases r <;> decide, ?_, ?_⟩
  · rintro n ⟨⟨⟨_, h⟩, _⟩ | ⟨cs, h, _⟩, _⟩
    · exact absurd (h '+' (by decide)) (by decide)
    · exact absurd (congrArg List.head? h) (by decide : some '+' ≠ some '-')
  · rintro n ⟨⟨_, rfl⟩ | ⟨cs, h, _⟩, hr⟩
    · exact absurd hr (by decide)
    · exact absurd (congrArg List.head? h) (by decide : some '2' ≠ some '-')

/-- `MemoryAccessIsBoundsChecked`: 0 and 1999 fall under the first clause, -1 and 2000 under the second. -/
theorem witness_memory_bounds :
    (0 ≤ (0 : Word).toInt ∧ (0 : Word).toInt ≤ 1999) ∧
    (0 ≤ (1999 : Word).toInt ∧ (1999 : Word).toInt ≤ 1999) ∧
    (-1 : Word).toInt < 0 ∧ 1999 < (2000 : Word).toInt := by decide

/-- `MemoryWriteChangesOneWord`, at the last word. -/
theorem witness_memory_write : ∃ m', Memory.wf ⟨[(4, 5)]⟩ ∧ memWrite ⟨[(4, 5)]⟩ 1999 7 = .ok m' :=
  ⟨⟨[(4, 5), (1999, 7)]⟩, by decide, rfl⟩

/-- `DecodeOfEncode`, with each operand form, and an unrecognised opcode. -/
theorem witness_wf :
    Instr.wf (.beq (.reg .t0) (.lit (-2147483648)) (.malformed ['x'])) = true ∧
    Instr.wf (.unrecognised []) = true := by decide

/-- `DecodedIsWellFormed`. -/
theorem witness_decoded : ∃ i, decode (toks "sw 42 $sp 9 nop") = .instr i :=
  ⟨.sw (.lit 42) (.malformed ['$', 's', 'p']) (.lit 9), by decide⟩

/-- `StepRunsDecodedInstruction`. -/
theorem witness_step_runs : (start 4 "j 8 0 0" [] []).status = .running ∧
    0 ≤ (start 4 "j 8 0 0" [] []).pc.toInt ∧
    decode ((start 4 "j 8 0 0" [] []).program.drop (start 4 "j 8 0 0" [] []).pc.toInt.toNat) =
      .instr (.j (.lit 8) (.lit 0) (.lit 0)) := by decide

/-- `HaltExactlyAtStreamEnd`: at the end of the stream and past it; the step of both is a halt. -/
theorem witness_halt :
    (∀ s ∈ [after (start 0 "nop" [] []), after (start 0 "foo" [] [])],
      s.status = .running ∧ (s.program.length : Int) ≤ s.pc.toInt ∧
      stepsTo (step s) (· = .halted) = true) ∧
    (after (start 0 "nop" [] [])).pc.toInt = 1 := by decide

/-- `NegativePcFaults`, at -1 and at -2147483648. -/
theorem witness_negative_pc :
    ∀ s ∈ [after (start 0 "j -1 0 0" [] []), after (start 0 "j -2147483648 0 0" [] [])],
      s.status = .running ∧ s.pc.toInt < 0 := by decide

/-- `StoppedMachineTakesNoStep`, `RunningMachineHasNextState`. -/
theorem witness_stopped : haltedState.status = .halted ∧
    faultedState.status = .faulted (.outOfRangeAddress 2000) ∧ State.reset.status = .running := by decide

/-- `FaultsArePrecise`, `FaultsHaveTheirCause`: a step that raises each of the four faults. -/
theorem witness_faults :
    ∀ x ∈ [(after (start 0 "j -1 0 0" [] []), Fault.pcOutOfRange (-1)),
        (start 2 "or $t0 1" [] [], .truncatedFrame 2),
        (start 2 "and $t0 1 $sp" [] [], .malformedOperand ['$', 's', 'p'] 5),
        (start 2 "sw 1 $t0 1" [(.t0, 1999)] [], .outOfRangeAddress 2000),
        (start 2 "lw $t0 -1 0" [] [], .outOfRangeAddress (-1))],
      x.1.status = .running ∧ stepsTo (step x.1) (· = .faulted x.2) = true := by decide

/-- `MalformedOperandFaults`: an operand malformed in slot 2, one in slot 3, those before it resolving. -/
theorem witness_malformed :
    resolvable (.reg .t0) = true ∧ resolvable (.lit 3) = true ∧
    Instr.wf (.j (.reg .t0) (.lit 3) (.malformed ['x'])) = true := by decide

/-- The twelve four-token opcodes, by token. -/
def f4Tokens : List Token :=
  (["j", "beq", "add", "addi", "sub", "sw", "lw", "sll", "srl", "mul", "and", "or"]).map String.toList

/-- `FourTokenFramesAreFetched` and the first clause of each instruction's statement: for every opcode a frame
whole up to the last token of the stream, and one a token short. -/
theorem witness_frames :
    ∀ op ∈ f4Tokens,
      (let s := State.boot [op, ['1'], ['$', 't', '0'], ['3']] true
       s.status = .running ∧ s.tok s.pc.toInt = some op ∧ s.tok (s.pc.toInt + 1) = some ['1'] ∧
         s.tok (s.pc.toInt + 2) = some ['$', 't', '0'] ∧ s.tok (s.pc.toInt + 3) = some ['3']) ∧
      (let s := State.boot [op, ['1'], ['$', 't', '0']] true
       s.status = .running ∧ s.tok s.pc.toInt = some op ∧
         (s.program.length : Int) ≤ s.pc.toInt + 3) := by decide

/-- `frameResolves`, the hypothesis of every statement of a result: a register, `$zero` and a literal. -/
theorem witness_resolves : frameResolves (.reg .t0) (.reg .zero) (.lit (-1)) := by
  exact ⟨rfl, rfl, rfl⟩

/-- `OutOfRangeAddressFaults`, `StoreWordWritesOneWord`, `LoadWordReadsOneWord`: sums at -1, 0, 1999, 2000 and
one that wraps, over a memory in canonical form. -/
theorem witness_index :
    (start 0 "" [(.t0, 2147483647), (.t1, 1999)] [(4, 5)]).mem.wf ∧
    (∀ x ∈ [(Operand.reg .zero, Operand.lit (-1), (-1 : Int)), (.lit 5, .lit (-5), 0),
        (.reg .t1, .reg .zero, 1999), (.reg .t1, .lit 1, 2000), (.reg .t0, .lit 1, -2147483648)],
      resolvable x.1 = true ∧ resolvable x.2.1 = true ∧
      x.2.2 = wrap32 (operandInt (start 0 "" [(.t0, 2147483647), (.t1, 1999)] [(4, 5)]) x.1 +
        operandInt (start 0 "" [(.t0, 2147483647), (.t1, 1999)] [(4, 5)]) x.2.1)) := by decide

/-- `OutOfRangeAddressFaults`, second clause. -/
theorem witness_index_fault :
    stepsTo (exec (.lw (.reg .t0) (.lit 2000) (.lit 0)) State.reset)
      (· = .faulted (.outOfRangeAddress 2000)) = true := by decide

/-- `BranchIfEqualAddsDisplacement`: equal and unequal comparands. -/
theorem witness_branch :
    operandInt (start 0 "" [(.t0, 5)] []) (.reg .t0) = operandInt (start 0 "" [(.t0, 5)] []) (.lit 5) ∧
    operandInt (start 0 "" [(.t0, 5)] []) (.reg .t0) ≠ operandInt (start 0 "" [(.t0, 5)] []) (.lit 6) := by
  decide

/-- `AddAndAddImmediateAgree`: a whole frame, and one cut short. -/
theorem witness_add_token :
    ∀ s ∈ [start 3 "add $t0 1 2" [] [], start 3 "add $t0 1" [] []],
      s.status = .running ∧ s.tok s.pc.toInt = some ['a', 'd', 'd'] ∧ (nextOf (step s)).isSome = true := by
  decide

/-- `NegativePcComesFromTransfer`: by a jump, a branch below 0 and one past 2^31 - 1. -/
theorem witness_negative_source :
    ∀ s ∈ [start 0 "j -1 0 0" [] [], start 1 "beq 0 0 -6" [] [], start 0 "beq 0 0 2147483644" [] []],
      s.status = .running ∧ 0 ≤ s.pc.toInt ∧ s.program.length ≤ Config.maxStreamLength ∧
      (nextOf (step s)).any (fun t => decide (t.pc.toInt < 0)) = true := by decide

/-- `LoadReadsMostRecentStore`, first clause: a store to the last word, one more step that is a store to
another, and another sum at the load. -/
theorem witness_load_after_store : ∃ t u,
    (start 0 "sw -7 $t1 0 sw 3 0 0" [(.t1, 1999)] []).mem.wf ∧
    frameResolves (.lit (-7)) (.reg .t1) (.lit 0) ∧
    exec (.sw (.lit (-7)) (.reg .t1) (.lit 0)) (start 0 "sw -7 $t1 0 sw 3 0 0" [(.t1, 1999)] []) =
      .next t ∧
    run 1 t = .next u ∧ NoStoreWithin 1 t 1999 ∧
    wrap32 (operandInt u (.lit 1000) + operandInt u (.lit 999)) = 1999 ∧ Reg.t1 ≠ .zero := by
  refine ⟨_, _, by decide, ⟨rfl, rfl, rfl⟩, rfl, rfl, ?_, by decide, by decide⟩
  rintro m u hm hu ⟨d, s1, s2, hd, hk⟩
  obtain rfl : m = 0 := by omega
  cases hu
  revert hd hk
  rintro ⟨⟩
  decide

/-- The second clause: two steps from reset, none a store. -/
theorem witness_load_unwritten : ∃ u, run 2 (State.boot (toks "nop nop") true) = .next u ∧
    NoStoreWithin 2 (State.boot (toks "nop nop") true) 0 := by
  refine ⟨_, rfl, ?_⟩
  rintro m u hm hu ⟨d, s1, s2, hd, -⟩
  obtain rfl | rfl : m = 0 ∨ m = 1 := by omega
  all_goals (cases hu; cases hd)

/-- `NopAdvancesByOneToken`, `UnrecognisedOpcodeIsSkipped`: as the last token of the stream. -/
theorem witness_one_token :
    (start 7 "nop" [] []).status = .running ∧
    (start 7 "nop" [] []).tok (start 7 "nop" [] []).pc.toInt = some ['n', 'o', 'p'] ∧
    (start 7 "Nop" [] []).tok (start 7 "Nop" [] []).pc.toInt = some ['N', 'o', 'p'] ∧
    (decodeTable.map (·.1)).length = 13 ∧ ['N', 'o', 'p'] ∉ decodeTable.map (·.1) := by decide

/-- `RegisterInstructionsFrame`: a completed load and one that faults. -/
theorem witness_register_frame : WritesRegister (.lw (.reg .t0) (.lit 0) (.lit 0)) (.reg .t0) ∧
    stepsTo (exec (.lw (.reg .t0) (.lit 0) (.lit 0)) State.reset) (· = .running) = true ∧
    WritesRegister (.lw (.lit 3) (.lit 0) (.lit 2000)) (.lit 3) ∧
    stepsTo (exec (.lw (.lit 3) (.lit 0) (.lit 2000)) State.reset) isFaulted = true :=
  ⟨⟨_, _, .inr (.inr (.inr (.inr (.inl rfl))))⟩, by decide,
    ⟨_, _, .inr (.inr (.inr (.inr (.inl rfl))))⟩, by decide⟩

/-- `StoreInstructionFrame`: an index and a malformed operand. -/
theorem witness_store_frame :
    stepsTo (exec (.sw (.lit 3) (.lit 0) (.lit 7)) State.reset) (· = .running) = true ∧
    (alu .store 3 0 7 State.reset.pc).index = some 7 ∧
    stepsTo (exec (.sw (.lit 3) (.lit 0) (.malformed ['x'])) State.reset) isFaulted = true := by decide

/-- `ControlInstructionsFrame`: each of the four completes from reset. -/
theorem witness_control_frame :
    ∀ i ∈ [Instr.j (.lit 3) (.lit 0) (.lit 0), .beq (.lit 3) (.lit 3) (.lit 0), .nop, .unrecognised []],
      stepsTo (exec i State.reset) (· = .running) = true := by decide

/-- `OnlyDestinationRegisterChanges`, `OnlyStoreWritesMemory`: a step that changes a register, and one that
changes the last word. -/
theorem witness_changes :
    seen (start 0 "or $s7 $s7 9" [] []) .s7 0 = some (4, 9, 0) ∧
    (start 0 "sw 9 1999 0" [] [(4, 5)]).mem.wf ∧
    seen (start 0 "sw 9 1999 0" [] [(4, 5)]) .s7 1999 = some (4, 0, 9) := by decide

/-- `ProgramIsReadOnly`, `TraceEnableChangesOnlyTracePort`: a run of two steps, and one that ends in a fault. -/
theorem witness_runs :
    stepsTo (run 2 (start 0 "sw 1 0 0 nop" [] [])) (· = .running) = true ∧
    (∃ f, run 3 (start 0 "nop lw 1 0 2000" [] []) = .fault f) :=
  ⟨by decide, _, rfl⟩

/-- `ControlTripleFollowsDecodeTable`: each token of the table, and one of none, in a step that completes. -/
theorem witness_triples :
    ∀ op ∈ ['N', 'o', 'p'] :: decodeTable.map (·.1),
      (let s := State.boot [op, ['1'], ['2'], ['3']] false
       s.status = .running ∧ s.tok s.pc.toInt = some op ∧ stepsTo (step s) (· = .running) = true) := by
  decide

/-- `TracePortEmitsSnapshots`: a step that completes, halts, faults. -/
theorem witness_trace :
    ∀ x ∈ [(start 0 "nop" [] [], Status.running), (start 0 "" [] [], .running),
        (State.boot [] true, .halted), (start 0 "j" [] [], .faulted (.truncatedFrame 0))],
      x.1.status = .running ∧ stepsTo (step x.1) (· = x.2) = true := by decide

/-- `StepKeepsInv`, `ResetMeetsInvariant`: a machine just reset, with an allowed stream, meets the invariant. -/
theorem witness_inv : (toks "add $t0 1 2").length ≤ Config.maxStreamLength ∧
    Inv (State.boot (toks "add $t0 1 2") true) ∧
    stepsTo (step (State.boot (toks "add $t0 1 2") true)) (· = .running) = true :=
  ⟨by decide, ⟨by decide, by decide, by decide, trivial, by decide, by decide, by simp [State.boot, State.resetWith]⟩,
    by decide⟩

end Sys2Proof.Tests
end

