-- ==== Sys2Proof/Proofs/StepOutcomes.lean ====
section
/-! PROOFS. The step of a running machine by what the fetch unit finds. -/

namespace Sys2Proof.Machine

section
variable {s : State}

theorem step_pastEnd (hs : s.status = .running) (hf : fetch s = .pastEnd) :
    step s = .next s.halt := by
  simp only [step, hs, hf]

theorem step_fetchFault {f : Fault} (hs : s.status = .running) (hf : fetch s = .fault f) :
    step s = .next (s.raise f) := by
  simp only [step, hs, hf]

theorem step_instr {i : Instr} (hs : s.status = .running) (hf : fetch s = .instr i) :
    step s = exec i s := by
  simp only [step, hs, hf]

/-- A running machine always has a next state (R136): a fault it meets is recorded in that state. -/
theorem exists_step_of_running (hs : s.status = .running) : ∃ t, step s = .next t := by
  rcases hf : fetch s with _ | f | i
  · exact ⟨_, step_pastEnd hs hf⟩
  · exact ⟨_, step_fetchFault hs hf⟩
  · rw [step_instr hs hf]
    exact exec_next i s

/-- Only a machine that has faulted answers a fault, and it answers the recorded one. -/
theorem status_of_step_fault {f : Fault} (h : step s = .fault f) : s.status = .faulted f := by
  rcases hs : s.status with _ | _ | f'
  · obtain ⟨t, ht⟩ := exists_step_of_running hs
    cases ht.symm.trans h
  · cases (step_halted hs).symm.trans h
  · cases (step_faulted hs).symm.trans h
    rfl

end

end Sys2Proof.Machine
end

