-- ==== Sys2Proof/Proofs/TracePort.lean ====
section
/-! PROOFS. The trace port and its input `TRACE_ENABLE` (`00_scope.md` R9): changing both before an operation
of the machine changes nothing but both after it. -/

namespace Sys2Proof.Machine

/-- The same machine under another `TRACE_ENABLE` and another record of what the trace port has emitted. -/
def State.withTracePort (s : State) (b : Bool) (tr : List Snapshot) : State :=
  { s with traceEnable := b, trace := tr }

section
variable (s : State) (b : Bool) (tr : List Snapshot)

/-! ### The operations that read the state or end a step -/

theorem State.withTracePort_status : (s.withTracePort b tr).status = s.status := rfl

theorem fetch_withTracePort : fetch (s.withTracePort b tr) = fetch s := rfl

theorem resolveAll_withTracePort (d s1 s2 : Operand) :
    resolveAll (s.withTracePort b tr) d s1 s2 = resolveAll s d s1 s2 := rfl

theorem State.raise_withTracePort (f : Fault) :
    (s.withTracePort b tr).raise f = (s.raise f).withTracePort b tr := rfl

/-- Halting emits its terminal snapshot whatever `TRACE_ENABLE` is (R212). -/
theorem State.halt_withTracePort :
    (s.withTracePort b tr).halt = s.halt.withTracePort b (s.snapshot true :: tr) := rfl

/-- Emitting a snapshot, or not, is a change of the trace port alone. -/
theorem State.emitStep_eq_withTracePort :
    s.emitStep = s.withTracePort s.traceEnable s.emitStep.trace := by
  unfold State.emitStep
  split <;> rfl

theorem State.emitStep_withTracePort :
    ∃ tr', (s.withTracePort b tr).emitStep = s.emitStep.withTracePort b tr' := by
  refine ⟨(s.withTracePort b tr).emitStep.trace, ?_⟩
  rw [State.emitStep_eq_withTracePort s]
  exact State.emitStep_eq_withTracePort (s.withTracePort b tr)

theorem State.complete_withTracePort (c : Control) (epc : Word) :
    ∃ tr', (s.withTracePort b tr).complete c epc = (s.complete c epc).withTracePort b tr' :=
  State.emitStep_withTracePort { s with ctl := c, pc := epc + 4 } b tr

end

/-! ### Steps and runs -/

section
variable {s t : State} (b : Bool) (tr : List Snapshot)

theorem executeFrame_withTracePort {c : Control} {dest : Option Operand} {d s1 s2 : Operand}
    (h : executeFrame c dest d s1 s2 s = .next t) :
    ∃ tr', executeFrame c dest d s1 s2 (s.withTracePort b tr) = .next (t.withTracePort b tr') := by
  have hres := resolveAll_withTracePort s b tr d s1 s2
  rcases executeFrame_cases h with ⟨f, hf, rfl⟩ | ⟨v, f, hv, hm, rfl⟩ | ⟨v, m, value, hv, hm, rfl⟩
  · exact ⟨tr, executeFrame_error (hres.trans hf)⟩
  · exact ⟨tr, executeFrame_memory_error (hres.trans hv) hm⟩
  · obtain ⟨tr', htr⟩ := State.complete_withTracePort
      { s with mem := m, regs := writeBack dest value s.regs } b tr c
      (alu c.aluClass v.d v.s1 v.s2 s.pc).epc
    exact ⟨tr', (executeFrame_ok (hres.trans hv) hm).trans (congrArg _ htr)⟩

theorem exec_withTracePort {i : Instr} (h : exec i s = .next t) :
    ∃ tr', exec i (s.withTracePort b tr) = .next (t.withTracePort b tr') := by
  rcases instr_cases i with rfl | ⟨op, rfl⟩ | ⟨o, d, s1, s2, ho, rfl⟩
  · obtain ⟨tr', htr⟩ := s.complete_withTracePort b tr (Control.ofInstr .nop) (s.pc - 3)
    cases h
    exact ⟨tr', congrArg _ htr⟩
  · obtain ⟨tr', htr⟩ := s.complete_withTracePort b tr Control.none s.pc
    cases h
    exact ⟨tr', congrArg _ htr⟩
  · rw [exec_instr o ho] at h ⊢
    exact executeFrame_withTracePort b tr h

/-- A step that has a next state has the same one, but for the trace port, under another trace port. -/
theorem step_withTracePort_next (h : step s = .next t) :
    ∃ tr', step (s.withTracePort b tr) = .next (t.withTracePort b tr') := by
  have hstatus := s.withTracePort_status b tr
  have hfetch := fetch_withTracePort s b tr
  rcases step_cases h with ⟨hs, rfl⟩ | ⟨hs, hf, rfl⟩ | ⟨hs, f, hf, rfl⟩ | ⟨hs, i, hf, he⟩
  · exact ⟨tr, step_halted (hstatus.trans hs)⟩
  · refine ⟨s.snapshot true :: tr, ?_⟩
    rw [step_pastEnd (hstatus.trans hs) (hfetch.trans hf), State.halt_withTracePort]
  · refine ⟨tr, ?_⟩
    rw [step_fetchFault (hstatus.trans hs) (hfetch.trans hf), State.raise_withTracePort]
  · rw [step_instr (hstatus.trans hs) (hfetch.trans hf)]
    exact exec_withTracePort b tr he

theorem step_withTracePort_fault {f : Fault} (h : step s = .fault f) :
    step (s.withTracePort b tr) = .fault f :=
  step_faulted ((s.withTracePort_status b tr).trans (status_of_step_fault h))

theorem run_withTracePort_next {n : Nat} (h : run n s = .next t) :
    ∃ tr', run n (s.withTracePort b tr) = .next (t.withTracePort b tr') := by
  induction n generalizing s tr with
  | zero =>
    cases h
    exact ⟨tr, rfl⟩
  | succ n ih =>
    obtain ⟨u, hu, hr⟩ := run_succ_next h
    obtain ⟨tr₁, h₁⟩ := step_withTracePort_next b tr hu
    rw [run_succ_of_next n h₁]
    exact ih tr₁ hr

theorem run_withTracePort_fault {n : Nat} {f : Fault} (h : run n s = .fault f) :
    run n (s.withTracePort b tr) = .fault f := by
  induction n generalizing s tr with
  | zero => cases h
  | succ n ih =>
    rcases hs : step s with u | f' | r
    · obtain ⟨tr₁, h₁⟩ := step_withTracePort_next b tr hs
      rw [run_succ_of_next n hs] at h
      rw [run_succ_of_next n h₁]
      exact ih tr₁ h
    · rw [run_succ_of_fault n hs] at h
      cases h
      exact run_succ_of_fault n (step_withTracePort_fault b tr hs)
    · cases (run_succ_of_refused n hs).symm.trans h

end

/-- Settles O45: a step under another trace port is the same step under that port
(`step_withTracePort_next`, `step_withTracePort_fault`), by induction on the number of steps. -/
theorem traceEnableChangesOnlyTracePort : Obligations.TraceEnableChangesOnlyTracePort :=
  fun _ _ b tr => ⟨fun _ => run_withTracePort_next b tr, fun _ => run_withTracePort_fault b tr⟩

end Sys2Proof.Machine
end

