-- ==== Sys2Proof/Proofs/Operands.lean ====
section
/-! PROOFS. The operands of an instruction: where a decoded one has them from, what they resolve to, and which of
them is a destination. -/

namespace Sys2Proof

/-- The operands of an instruction in frame order (R72); `nop` and an unrecognised opcode have none. -/
def Instr.operands : Instr → List Operand
  | .j d s1 s2 | .beq d s1 s2 | .add d s1 s2 | .addi d s1 s2 | .sub d s1 s2 | .sw d s1 s2
  | .lw d s1 s2 | .sll d s1 s2 | .srl d s1 s2 | .mul d s1 s2 | .and d s1 s2 | .or d s1 s2 =>
    [d, s1, s2]
  | .nop | .unrecognised _ => []

theorem Opcode.operands_instr {o : Opcode} (ho : o ≠ .nop) (d s1 s2 : Operand) :
    (o.instr d s1 s2).operands = [d, s1, s2] := by
  cases o <;> first | rfl | exact absurd rfl ho

/-- Each operand of a decoded instruction is read from its own token of the frame. -/
theorem decode_operand {toks : List Token} {i : Instr} {k : Nat} {x : Operand}
    (h : decode toks = .instr i) (hx : i.operands[k]? = some x) :
    ∃ t, toks[k + 1]? = some t ∧ Operand.ofToken t = x := by
  rcases decode_cases toks with ⟨-, hd⟩ | ⟨op, rest, -, -, hd⟩ | ⟨rest, -, hd⟩ |
    ⟨o, rest, -, -, -, hd⟩ | ⟨o, t1, t2, t3, rest, ho, rfl, hd⟩ <;> cases hd.symm.trans h
  · cases hx
  · cases hx
  · rw [Opcode.operands_instr ho] at hx
    match k, hx with
    | 0, hx => exact ⟨t1, rfl, Option.some.inj hx⟩
    | 1, hx => exact ⟨t2, rfl, Option.some.inj hx⟩
    | 2, hx => exact ⟨t3, rfl, Option.some.inj hx⟩

end Sys2Proof

namespace Sys2Proof.Machine

/-! ### Resolving -/

/-- The `k`-th token from the pc on is the token at the index `pc + k`. -/
theorem State.tok_of_drop {s : State} {k : Nat} {t : Token} (hpc : 0 ≤ s.pc.toInt)
    (h : (s.program.drop s.pc.toInt.toNat)[k]? = some t) : s.tok (s.pc.toInt + k) = some t := by
  rw [List.getElem?_drop] at h
  rw [State.tok_eq_some, show (s.pc.toInt + k).toNat = s.pc.toInt.toNat + k by omega]
  exact ⟨by omega, h⟩

/-- An operand that resolves has its integer value from the word it resolves to. -/
theorem operandInt_of_resolve {s : State} {slot : Nat} {o : Operand} {v : Word}
    (h : resolve s slot o = .ok v) : operandInt s o = v.toInt := by
  cases o with
  | reg r => cases h; rfl
  | lit w => cases h; rfl
  | malformed t => cases h

theorem operandInt_of_resolveAll {s : State} {d s1 s2 : Operand} {v : OperandValues}
    (h : resolveAll s d s1 s2 = .ok v) :
    operandInt s d = v.d.toInt ∧ operandInt s s1 = v.s1.toInt ∧ operandInt s s2 = v.s2.toInt := by
  rcases resolveAll_cases s d s1 s2 with ⟨w, hd, h1, h2, hw⟩ | ⟨t, -, hw⟩ | ⟨t, w, -, -, hw⟩ |
    ⟨t, w, x, -, -, -, hw⟩ <;> cases hw.symm.trans h
  exact ⟨operandInt_of_resolve hd, operandInt_of_resolve h1, operandInt_of_resolve h2⟩

/-- The fault of the resolver names a malformed operand of the frame and the index of its token. -/
theorem resolveAll_error {s : State} {d s1 s2 : Operand} {f : Fault}
    (h : resolveAll s d s1 s2 = .error f) :
    ∃ k t, k < 3 ∧ [d, s1, s2][k]? = some (.malformed t) ∧
      f = .malformedOperand t (s.pc.toInt + (k + 1 : Nat)) := by
  rcases resolveAll_cases s d s1 s2 with ⟨v, -, -, -, hf⟩ | ⟨t, rfl, hf⟩ | ⟨t, v, -, rfl, hf⟩ |
    ⟨t, v, w, -, -, rfl, hf⟩ <;> cases hf.symm.trans h
  · exact ⟨0, t, by decide, rfl, rfl⟩
  · exact ⟨1, t, by decide, rfl, rfl⟩
  · exact ⟨2, t, by decide, rfl, rfl⟩

/-- `wrap32` is the library's balanced remainder. -/
theorem wrap32_eq_bmod (n : Int) : wrap32 n = n.bmod (2 ^ 32) := by
  rw [Int.bmod_def, wrap32]
  norm_num
  omega

/-- The sum of two words is the wrapped sum of their signed readings (R11). -/
theorem toInt_add_eq_wrap32 (v w : Word) : (v + w).toInt = wrap32 (v.toInt + w.toInt) := by
  rw [wrap32_eq_bmod, BitVec.toInt_add]

/-! ### Destinations -/

/-- The instructions that write a register are those whose destination is not `NOREG`. -/
theorem writesRegister_instr_iff (o : Opcode) (d s1 s2 d' : Operand) :
    WritesRegister (o.instr d s1 s2) d' ↔ destOf o d = some d' := by
  cases o <;> simp [WritesRegister, Opcode.instr, destOf]

theorem not_writesRegister_nop (d : Operand) : ¬ WritesRegister .nop d := by
  simp [WritesRegister]

theorem not_writesRegister_unrecognised (op : Token) (d : Operand) :
    ¬ WritesRegister (.unrecognised op) d := by
  simp [WritesRegister]

/-- An instruction names at most one destination. -/
theorem WritesRegister.unique {i : Instr} {d d' : Operand} (h : WritesRegister i d)
    (h' : WritesRegister i d') : d = d' := by
  rcases instr_cases i with rfl | ⟨op, rfl⟩ | ⟨o, a, s1, s2, -, rfl⟩
  · exact absurd h (not_writesRegister_nop d)
  · exact absurd h (not_writesRegister_unrecognised op d)
  · rw [writesRegister_instr_iff] at h h'
    exact Option.some.inj (h.symm.trans h')

/-- `sw` is the one opcode whose control triple has the memory-write signal (R104). -/
theorem memWrite_ofInstr_iff (o : Opcode) (d s1 s2 : Operand) :
    (Control.ofInstr (o.instr d s1 s2)).memWrite = true ↔ o = .sw := by
  cases o <;> simp [Opcode.instr, Control.ofInstr]

end Sys2Proof.Machine
end

