-- ==== Sys2Proof/Proofs/ExecOutcomes.lean ====
section
/-! PROOFS. All an instruction can do (`40_engine.md` R136), said once for the fourteen of them, and the frame of
each: what it leaves unchanged. -/

namespace Sys2Proof.Machine

/-! ### The memory step -/

theorem memoryStep_error {c : Control} {out : AluOutput} {m : Memory} {f : Fault}
    (h : memoryStep c out m = .error f) :
    ∃ idx, inMemory idx = false ∧ f = .outOfRangeAddress idx.toInt := by
  rcases memoryStep_cases c out m with ⟨value, hm⟩ | ⟨idx, v, -, -, -, -, hm⟩ | ⟨idx, hin, -, hm⟩ <;>
    cases hm.symm.trans h
  exact ⟨idx, hin, rfl⟩

theorem memoryStep_ok {c : Control} {out : AluOutput} {m m' : Memory} {value : Option Word}
    (h : memoryStep c out m = .ok (m', value)) :
    m' = m ∨ ∃ idx v, c.memWrite = true ∧ out.index = some idx ∧ out.result = some v ∧
      memWrite m idx v = .ok m' := by
  rcases memoryStep_cases c out m with ⟨value, hm⟩ | ⟨idx, v, hc, hidx, hv, hin, hm⟩ |
    ⟨idx, -, -, hm⟩ <;> cases hm.symm.trans h
  · exact .inl rfl
  · exact .inr ⟨idx, v, hc, hidx, hv, if_pos hin⟩

/-! ### All an instruction can do -/

/-- The faults `i` can take in `s`: that of a malformed operand of its frame (R194), or that of an index outside
data memory (R195). -/
def ExecFault (i : Instr) (s : State) (f : Fault) : Prop :=
  (∃ k t, k < 3 ∧ i.operands[k]? = some (.malformed t) ∧
    f = .malformedOperand t (s.pc.toInt + (k + 1 : Nat))) ∨
  ∃ idx : Word, inMemory idx = false ∧ f = .outOfRangeAddress idx.toInt

/-- The data memory `i` can leave in `s`: the one there was, or, for a `sw`, that with the one word stored (R160). -/
def MemoryAfter (i : Instr) (s : State) (m : Memory) : Prop :=
  m = s.mem ∨ ∃ d s1 s2 v, i = .sw d s1 s2 ∧ resolveAll s d s1 s2 = .ok v ∧
    memWrite s.mem (v.s1 + v.s2) v.d = .ok m

/-- The registers `i` can leave in `s`: those there were, or, for an instruction that writes a register, those
after the write-back (R124). -/
def RegsAfter (i : Instr) (s : State) (f : RegFile) : Prop :=
  f = s.regs ∨ ∃ d value, WritesRegister i d ∧ f = writeBack (some d) value s.regs

/-- What the write-back port leaves, by its destination. -/
theorem regsAfter_writeBack {o : Opcode} (d s1 s2 : Operand) (s : State) (value : Option Word) :
    RegsAfter (o.instr d s1 s2) s (writeBack (destOf o d) value s.regs) := by
  rcases hd : destOf o d with _ | d'
  · exact .inl (writeBack_none value s.regs)
  · exact .inr ⟨d', value, (writesRegister_instr_iff o d s1 s2 d').2 hd, rfl⟩

/-- What the memory step leaves: only the triple of `sw` lets it write, at the index the ALU gives `sw`. -/
theorem memoryAfter_memoryStep {o : Opcode} {d s1 s2 : Operand} {s : State} {v : OperandValues}
    {m : Memory} {value : Option Word} (hv : resolveAll s d s1 s2 = .ok v)
    (hm : memoryStep (Control.ofInstr (o.instr d s1 s2))
      (alu (Control.ofInstr (o.instr d s1 s2)).aluClass v.d v.s1 v.s2 s.pc) s.mem = .ok (m, value)) :
    MemoryAfter (o.instr d s1 s2) s m := by
  rcases memoryStep_ok hm with rfl | ⟨idx, w, hc, hidx, hw, hwrite⟩
  · exact .inl rfl
  · obtain rfl := (memWrite_ofInstr_iff o d s1 s2).1 hc
    obtain rfl : v.s1 + v.s2 = idx := Option.some.inj hidx
    obtain rfl : v.d = w := Option.some.inj hw
    exact .inr ⟨d, s1, s2, v, rfl, hv, hwrite⟩

/-- All an instruction can do: take a fault, or complete under its own control triple. -/
theorem exec_cases {i : Instr} {s t : State} (h : exec i s = .next t) :
    (∃ f, ExecFault i s f ∧ t = s.raise f) ∨
    ∃ epc m f, MemoryAfter i s m ∧ RegsAfter i s f ∧
      t = State.complete (Control.ofInstr i) epc { s with mem := m, regs := f } := by
  rcases instr_cases i with rfl | ⟨op, rfl⟩ | ⟨o, d, s1, s2, ho, rfl⟩
  · cases h
    exact .inr ⟨_, _, _, .inl rfl, .inl rfl, rfl⟩
  · cases h
    exact .inr ⟨_, _, _, .inl rfl, .inl rfl, rfl⟩
  · rw [exec_instr o ho] at h
    rcases executeFrame_cases h with ⟨f, hf, rfl⟩ | ⟨v, f, -, hf, rfl⟩ | ⟨v, m, value, hv, hm, rfl⟩
    · refine .inl ⟨f, .inl ?_, rfl⟩
      rw [Opcode.operands_instr ho]
      exact resolveAll_error hf
    · exact .inl ⟨f, .inr (memoryStep_error hf), rfl⟩
    · exact .inr ⟨_, m, _, memoryAfter_memoryStep hv hm, regsAfter_writeBack d s1 s2 s value, rfl⟩

/-! ### What it leaves unchanged -/

section
variable {i : Instr} {s t : State} (h : exec i s = .next t)
include h

theorem exec_program : t.program = s.program := by
  rcases exec_cases h with ⟨f, -, rfl⟩ | ⟨epc, m, f, -, -, rfl⟩ <;> simp

theorem exec_traceEnable : t.traceEnable = s.traceEnable := by
  rcases exec_cases h with ⟨f, -, rfl⟩ | ⟨epc, m, f, -, -, rfl⟩ <;> simp

theorem exec_memoryAfter : MemoryAfter i s t.mem := by
  rcases exec_cases h with ⟨f, -, rfl⟩ | ⟨epc, m, f, hm, -, rfl⟩
  · exact .inl rfl
  · simpa using hm

theorem exec_regsAfter : RegsAfter i s t.regs := by
  rcases exec_cases h with ⟨f, -, rfl⟩ | ⟨epc, m, f, -, hf, rfl⟩
  · exact .inl rfl
  · simpa using hf

/-- A word of data memory keeps its value in every instruction that is no `sw`. -/
theorem exec_word (hi : ∀ d s1 s2, i ≠ .sw d s1 s2) (k : Nat) : t.word k = s.word k := by
  rcases exec_memoryAfter h with hm | ⟨d, s1, s2, v, hsw, -, -⟩
  · rw [State.word, hm, State.word]
  · exact absurd hsw (hi d s1 s2)

/-- A register keeps its value unless it is a writable one that the instruction names as its destination. -/
theorem exec_readReg {r : Reg} (hr : ¬ (WritesRegister i (.reg r) ∧ r ≠ .zero)) :
    t.readReg r = s.readReg r := by
  rcases exec_regsAfter h with hf | ⟨d, value, hd, hf⟩
  · rw [State.readReg, hf, State.readReg]
  · rw [State.readReg, hf]
    refine writeBack_frame (some d) value s.regs r ?_
    rintro ⟨hdr, hz⟩
    exact hr ⟨Option.some.inj hdr ▸ hd, hz⟩

end

/-- No `sw` writes a register. -/
theorem WritesRegister.ne_sw {i : Instr} {d : Operand} (h : WritesRegister i d) (d' s1 s2 : Operand) :
    i ≠ .sw d' s1 s2 := by
  rintro rfl
  cases (writesRegister_instr_iff .sw d' s1 s2 d).1 h

/-- Settles O37: by `exec_readReg`, the destination being the only one the instruction names, and
`exec_word`. -/
theorem registerInstructionsFrame : Obligations.RegisterInstructionsFrame := by
  intro s t i d hd h
  refine ⟨fun r hr => exec_readReg h ?_, exec_word h hd.ne_sw, exec_program h, exec_traceEnable h⟩
  rintro ⟨hdr, hz⟩
  exact hr ⟨hd.unique hdr, hz⟩

/-- Settles O39: none of the four is a `sw` and none names a destination. -/
theorem controlInstructionsFrame : Obligations.ControlInstructionsFrame := by
  intro s t i hi h
  have hneither : (∀ d, ¬ WritesRegister i d) ∧ ∀ d s1 s2, i ≠ .sw d s1 s2 := by
    rcases hi with ⟨d, s1, s2, rfl | rfl⟩ | rfl | ⟨op, rfl⟩ <;> simp [WritesRegister]
  obtain ⟨hreg, hsw⟩ := hneither
  exact ⟨fun r => exec_readReg h fun hr => hreg _ hr.1, exec_word h hsw, exec_program h,
    exec_traceEnable h⟩

end Sys2Proof.Machine
end

