-- ==== Sys2Proof/Proofs/StepChanges.lean ====
section
/-! PROOFS. What a step can change at all (`10_state.md` R25, R36, R37), and what any number of steps cannot. -/

namespace Sys2Proof.Machine

/-- What the fetch unit hands on is what the decoder reads at the pc. -/
theorem decode_of_fetch {s : State} {i : Instr} (h : fetch s = .instr i) :
    0 ≤ s.pc.toInt ∧ decode (s.program.drop s.pc.toInt.toNat) = .instr i := by
  rcases fetch_cases s with ⟨-, hf⟩ | ⟨-, -, -, hf⟩ | ⟨-, -, -, -, hf⟩ | ⟨hpc, -, j, hd, hf⟩ <;>
    cases hf.symm.trans h
  exact ⟨hpc, hd⟩

section
variable {s t : State} (h : step s = .next t)
include h

/-- A step leaves registers and data memory alone, or it is the instruction at the pc. -/
theorem step_unchanged_or_exec : (t.regs = s.regs ∧ t.mem = s.mem) ∨
    ∃ i, decode (s.program.drop s.pc.toInt.toNat) = .instr i ∧ exec i s = .next t := by
  rcases step_cases h with ⟨-, rfl⟩ | ⟨-, -, rfl⟩ | ⟨-, f, -, rfl⟩ | ⟨-, i, hf, he⟩
  · exact .inl ⟨rfl, rfl⟩
  · exact .inl ⟨rfl, rfl⟩
  · exact .inl ⟨rfl, rfl⟩
  · exact .inr ⟨i, (decode_of_fetch hf).2, he⟩

theorem step_program : t.program = s.program := by
  rcases step_cases h with ⟨-, rfl⟩ | ⟨-, -, rfl⟩ | ⟨-, f, -, rfl⟩ | ⟨-, i, -, he⟩
  · rfl
  · rfl
  · rfl
  · exact exec_program he

theorem step_traceEnable : t.traceEnable = s.traceEnable := by
  rcases step_cases h with ⟨-, rfl⟩ | ⟨-, -, rfl⟩ | ⟨-, f, -, rfl⟩ | ⟨-, i, -, he⟩
  · rfl
  · rfl
  · rfl
  · exact exec_traceEnable he

end

/-- Settles O40: a step that changes a register is the instruction at the pc, and `exec_readReg` says which
register that can change. -/
theorem onlyDestinationRegisterChanges : Obligations.OnlyDestinationRegisterChanges := by
  intro s t r h
  refine ⟨RegFile.read_zero t.regs, fun hne => ?_⟩
  rcases step_unchanged_or_exec h with ⟨hregs, -⟩ | ⟨i, hd, he⟩
  · exact absurd (congrArg (RegFile.read · r) hregs) hne
  · by_contra hnot
    exact hne (exec_readReg he fun ⟨hw, hz⟩ => hnot ⟨hz, i, hd, hw⟩)

/-- Reading after a write that succeeds: its index names a word of the memory, and no other word changes. -/
theorem word_of_memWrite {m m' : Memory} {idx v : Word} (hm : m.wf) (h : memWrite m idx v = .ok m')
    (k : Nat) : (0 ≤ idx.toInt ∧ idx.toInt < 2000) ∧
      m'.word k = if (k : Int) = idx.toInt then v else m.word k := by
  rcases memWrite_cases m idx v with ⟨hin, hw⟩ | ⟨-, hw⟩ <;> cases hw.symm.trans h
  have hidx := (inMemory_iff idx).1 hin
  refine ⟨hidx, ?_⟩
  rw [Memory.word, cellsRead_cellsWrite m.cells idx.toNat k v hm.1, ← toNat_of_toInt_nonneg idx hidx.1,
    Memory.word]
  simp only [Nat.cast_inj, eq_comm]

/-- Settles O41: a step that changes a word is the `sw` at the pc (`exec_memoryAfter`), and that writes the one
word at the index the ALU computes. -/
theorem onlyStoreWritesMemory : Obligations.OnlyStoreWritesMemory := by
  intro s t k hwf h hne
  rcases step_unchanged_or_exec h with ⟨-, hmem⟩ | ⟨i, hd, he⟩
  · exact absurd (congrArg (Memory.word · k) hmem) hne
  rcases exec_memoryAfter he with hmem | ⟨d, s1, s2, v, rfl, hv, hw⟩
  · exact absurd (congrArg (Memory.word · k) hmem) hne
  obtain ⟨⟨-, hlt⟩, hword⟩ := word_of_memWrite hwf hw k
  obtain ⟨hd', h1, h2⟩ := operandInt_of_resolveAll hv
  have hk : (k : Int) = (v.s1 + v.s2).toInt := by
    by_contra hk
    exact hne (hword.trans (if_neg hk))
  refine ⟨by omega, d, s1, s2, hd, ?_, ?_⟩
  · rw [hk, toInt_add_eq_wrap32, h1, h2]
  · rw [State.word, hword, if_pos hk, hd']

/-- Settles O42: no step changes either input, so no run does (`run_keeps`). -/
theorem programIsReadOnly : Obligations.ProgramIsReadOnly := by
  intro n s t h
  refine run_keeps (P := fun u => u.program = s.program ∧ u.traceEnable = s.traceEnable) ?_
    ⟨rfl, rfl⟩ h
  rintro u w ⟨hp, ht⟩ hu
  exact ⟨(step_program hu).trans hp, (step_traceEnable hu).trans ht⟩

theorem run_halted {s : State} (h : s.status = .halted) (n : Nat) : run n s = .next s := by
  induction n with
  | zero => rfl
  | succ n ih => rw [run_succ_of_next n (step_halted h), ih]

/-- Settles O13: a halted machine steps to itself, by induction on the number of steps; a faulted one has no first
step. -/
theorem stoppedMachineTakesNoStep : Obligations.StoppedMachineTakesNoStep :=
  fun _ n => ⟨fun h => run_halted h n, fun _ h => run_succ_of_fault n (step_faulted h)⟩

end Sys2Proof.Machine
end

