-- ==== Sys2Proof/Proofs/Invariant.lean ====
section
/-! PROOFS. The invariant of a run (`Inv`), field by field, over the four ends of a step: the machine stays halted,
halts, takes a fault, or completes an instruction. -/

namespace Sys2Proof.Machine

/-! ### Control triple and data memory -/

/-- The triple of every instruction is a row of the decode table (R104). -/
theorem triple_ofInstr_mem (i : Instr) : (Control.ofInstr i).triple ∈ controlRows := by
  cases i <;> simp [Control.ofInstr, Control.none, Control.triple, AluClass.code, controlRows]

/-- An instruction leaves data memory in canonical form. -/
theorem MemoryAfter.wf {i : Instr} {s : State} {m : Memory} (h : MemoryAfter i s m) (hs : s.mem.wf) :
    m.wf := by
  rcases h with rfl | ⟨d, s1, s2, v, -, -, hw⟩
  · exact hs
  · exact memWrite_wf hs hw

/-! ### The run status -/

theorem statusTrue_of_running {s : State} (h : s.status = .running) : StatusTrue s := by
  simp only [StatusTrue, h]

/-- What the fetch unit reports of the pc and the stream is the case. -/
theorem statusTrue_raise_of_fetch {s : State} {f : Fault} (h : fetch s = .fault f) :
    StatusTrue (s.raise f) := by
  rcases fetch_cases s with ⟨hneg, hf⟩ | ⟨-, -, -, hf⟩ | ⟨hpc, -, hlt, hle, hf⟩ | ⟨-, -, i, -, hf⟩ <;>
    cases hf.symm.trans h
  · exact ⟨rfl, hneg⟩
  · exact ⟨rfl, hpc, hlt, hle⟩

/-- What an instruction at the pc reports of its operands or its index is the case: the malformed operand was read
from the token the fault names (`decode_operand`). -/
theorem statusTrue_raise_of_exec {s : State} {i : Instr} {f : Fault} (hi : fetch s = .instr i)
    (h : ExecFault i s f) : StatusTrue (s.raise f) := by
  obtain ⟨hpc, hd⟩ := decode_of_fetch hi
  rcases h with ⟨k, t, hk, hop, rfl⟩ | ⟨idx, hin, rfl⟩
  · obtain ⟨t', htok, ht⟩ := decode_operand hd hop
    obtain rfl := Operand.ofToken_malformed ht
    exact ⟨by simp only [State.raise_pc]; omega, by simp only [State.raise_pc]; omega,
      State.tok_of_drop hpc htok, ht⟩
  · have hout : ¬ (0 ≤ idx.toInt ∧ idx.toInt < 2000) := by simp [← inMemory_iff, hin]
    show idx.toInt < 0 ∨ 2000 ≤ idx.toInt
    omega

/-! ### The trace port -/

/-- Until the halt the record holds no terminal snapshot. -/
theorem traceTrue_iff_of_not_halted {s : State} (h : s.status ≠ .halted) :
    TraceTrue s ↔ (∀ x ∈ s.trace, x.mem.wf) ∧
      (s.traceEnable = false → ∀ x ∈ s.trace, x.terminal = true) ∧
      ∀ x ∈ s.trace, x.terminal = false := by
  rcases hs : s.status with _ | _ | f
  · simp only [TraceTrue, hs]
  · exact absurd hs h
  · simp only [TraceTrue, hs]

/-- The trace port's part of the invariant reads no more than the record and `TRACE_ENABLE`, until the halt. -/
theorem TraceTrue.of_same_record {s t : State} (h : TraceTrue s) (hs : s.status ≠ .halted)
    (ht : t.status ≠ .halted) (hrecord : t.trace = s.trace) (hinput : t.traceEnable = s.traceEnable) :
    TraceTrue t := by
  rw [traceTrue_iff_of_not_halted ht, hrecord, hinput]
  exact (traceTrue_iff_of_not_halted hs).1 h

/-- A completed step adds no snapshot or, with tracing on, one that is not terminal. -/
theorem traceTrue_complete {s : State} (hs : s.status ≠ .halted) (h : TraceTrue s) (hm : s.mem.wf)
    (c : Control) (epc : Word) : TraceTrue (s.complete c epc) := by
  rw [traceTrue_iff_of_not_halted (by simpa using hs), State.complete_trace,
    State.complete_traceEnable]
  obtain ⟨hwf, hoff, hterm⟩ := (traceTrue_iff_of_not_halted hs).1 h
  cases hte : s.traceEnable with
  | false => exact ⟨hwf, fun _ => hoff hte, hterm⟩
  | true =>
    exact ⟨List.forall_mem_cons.2 ⟨hm, hwf⟩, fun hf => absurd hf (by decide),
      List.forall_mem_cons.2 ⟨rfl, hterm⟩⟩

/-- The halt adds the one terminal snapshot. -/
theorem traceTrue_halt {s : State} (hs : s.status ≠ .halted) (h : TraceTrue s) (hm : s.mem.wf) :
    TraceTrue s.halt := by
  obtain ⟨hwf, hoff, hterm⟩ := (traceTrue_iff_of_not_halted hs).1 h
  exact ⟨List.forall_mem_cons.2 ⟨hm, hwf⟩, fun hf => List.forall_mem_cons.2 ⟨rfl, hoff hf⟩,
    s.trace, rfl, hterm⟩

/-! ### The ends of a step -/

section
variable {s : State} (hs : s.status = .running) (hinv : Inv s)
include hs hinv

theorem inv_halt (hf : fetch s = .pastEnd) : Inv s.halt := by
  have hlen : (s.program.length : Int) ≤ s.pc.toInt := by
    rcases fetch_cases s with ⟨-, h⟩ | ⟨-, -, hlen, -⟩ | ⟨-, -, -, -, h⟩ | ⟨-, -, i, -, h⟩
    · cases h.symm.trans hf
    · exact hlen
    · cases h.symm.trans hf
    · cases h.symm.trans hf
  exact ⟨hinv.memory, hinv.stream, hinv.control, hlen,
    traceTrue_halt (by simp [hs]) hinv.trace hinv.memory⟩

theorem inv_raise {f : Fault} (hf : StatusTrue (s.raise f)) : Inv (s.raise f) :=
  ⟨hinv.memory, hinv.stream, hinv.control, hf,
    hinv.trace.of_same_record (by simp [hs]) (by simp) rfl rfl⟩

/-- The operations before the end of an instruction touch registers and data memory alone. -/
theorem inv_complete {m : Memory} (hm : m.wf) (i : Instr) (epc : Word) (f : RegFile) :
    Inv (State.complete (Control.ofInstr i) epc { s with mem := m, regs := f }) where
  memory := by simpa using hm
  stream := by simpa using hinv.stream
  control := by simpa using triple_ofInstr_mem i
  status := statusTrue_of_running (by simpa using hs)
  trace := by
    have hne : s.status ≠ .halted := by simp [hs]
    exact traceTrue_complete (s := { s with mem := m, regs := f }) hne
      (hinv.trace.of_same_record hne hne rfl rfl) hm (Control.ofInstr i) epc

theorem inv_exec {i : Instr} {t : State} (hi : fetch s = .instr i) (h : exec i s = .next t) :
    Inv t := by
  rcases exec_cases h with ⟨f, hf, rfl⟩ | ⟨epc, m, f, hm, -, rfl⟩
  · exact inv_raise hs hinv (statusTrue_raise_of_exec hi hf)
  · exact inv_complete hs hinv (hm.wf hinv.memory) i epc f

end

/-- Settles O47: each of the four ends of a step keeps the invariant. -/
theorem stepKeepsInv : Obligations.StepKeepsInv := by
  intro s t hinv h
  rcases step_cases h with ⟨-, rfl⟩ | ⟨hs, hf, rfl⟩ | ⟨hs, f, hf, rfl⟩ | ⟨hs, i, hi, he⟩
  · exact hinv
  · exact inv_halt hs hinv hf
  · exact inv_raise hs hinv (statusTrue_raise_of_fetch hf)
  · exact inv_exec hs hinv hi he

/-! ### Reset -/

/-- What a reset leaves (R220) meets the invariant, whatever the inputs within the bound of R36. -/
theorem inv_resetWith {program : List Token} (traceEnable : Bool)
    (h : program.length ≤ Config.maxStreamLength) : Inv (State.resetWith program traceEnable) where
  memory := memory_empty_wf
  stream := h
  control := by simp [State.resetWith, Control.none, Control.triple, AluClass.code, controlRows]
  status := statusTrue_of_running rfl
  trace := (traceTrue_iff_of_not_halted (by simp [State.resetWith])).2 (by simp [State.resetWith])

/-- Settles O46: both states are what a reset leaves, the first with an empty stream. -/
theorem resetMeetsInvariant : Obligations.ResetMeetsInvariant :=
  ⟨inv_resetWith false (Nat.zero_le _), fun _ traceEnable h => inv_resetWith traceEnable h⟩

end Sys2Proof.Machine
end

