-- ==== Sys2Proof/Proofs/MemoryAccess.lean ====
section
/-! PROOFS. One access to data memory (`20_memory.md` R54 to R56): its bounds, what a write changes, and what a
`sw` or `lw` whose index names a word leaves. -/

namespace Sys2Proof.Machine

/-! ### The access itself -/

/-- Settles O5: both accesses make the one test `inMemory`, and `inMemory_iff` reads it in integers. -/
theorem memoryAccessIsBoundsChecked : Obligations.MemoryAccessIsBoundsChecked := by
  intro m idx v
  constructor
  · intro h0 hle
    have hin : inMemory idx = true := (inMemory_iff idx).2 ⟨h0, by omega⟩
    have hidx : idx.toNat = idx.toInt.toNat := by
      rw [← toNat_of_toInt_nonneg idx h0, Int.toNat_natCast]
    rw [← hidx]
    exact ⟨if_pos hin, _, if_pos hin⟩
  · intro hout
    have hin : ¬ inMemory idx = true := fun hin => by
      have := (inMemory_iff idx).1 hin
      omega
    exact ⟨if_neg hin, if_neg hin⟩

/-- Settles O6: by `memWrite_wf` and `word_of_memWrite`. -/
theorem memoryWriteChangesOneWord : Obligations.MemoryWriteChangesOneWord :=
  fun _ _ _ _ hm h => ⟨memWrite_wf hm h, fun k => (word_of_memWrite hm h k).2⟩

/-! ### `sw` and `lw` at an index that names a word -/

theorem exists_resolve {o : Operand} (h : resolvable o = true) (s : State) (slot : Nat) :
    ∃ v, resolve s slot o = .ok v := by
  rcases resolve_cases s slot o with hv | ⟨t, rfl, -⟩
  · exact hv
  · cases h

/-- Three operands that resolve give the frame its three values. -/
theorem exists_resolveAll {d s1 s2 : Operand} (h : frameResolves d s1 s2) (s : State) :
    ∃ v, resolveAll s d s1 s2 = .ok v := by
  obtain ⟨hd, h1, h2⟩ := h
  obtain ⟨dv, hdv⟩ := exists_resolve hd s 1
  obtain ⟨v1, hv1⟩ := exists_resolve h1 s 2
  obtain ⟨v2, hv2⟩ := exists_resolve h2 s 3
  exact ⟨⟨dv, v1, v2⟩, by simp only [resolveAll, hdv, hv1, hv2]⟩

section
variable {s : State} {d s1 s2 : Operand} {k : Nat} (hres : frameResolves d s1 s2)
  (hk : (k : Int) = wrap32 (operandInt s s1 + operandInt s s2)) (hle : k ≤ 1999)
include hres hk hle

/-- `sw` (R160) writes the value of its first operand at the word it names, and completes. -/
theorem exec_sw_of_index : ∃ (idx v : Word) (m : Memory), idx.toInt = k ∧ v.toInt = operandInt s d ∧
    memWrite s.mem idx v = .ok m ∧
    exec (.sw d s1 s2) s = .next (State.complete (Control.ofInstr (.sw d s1 s2)) s.pc
      { s with mem := m }) := by
  obtain ⟨v, hv⟩ := exists_resolveAll hres s
  obtain ⟨hd, h1, h2⟩ := operandInt_of_resolveAll hv
  have hidx : (v.s1 + v.s2).toInt = k := by rw [toInt_add_eq_wrap32, hk, h1, h2]
  obtain ⟨-, m, hm⟩ := (memoryAccessIsBoundsChecked s.mem (v.s1 + v.s2) v.d).1 (by omega) (by omega)
  have hstep : memoryStep (Control.ofInstr (.sw d s1 s2)) (alu .store v.d v.s1 v.s2 s.pc) s.mem =
      .ok (m, none) := by
    simp only [memoryStep, Control.ofInstr, alu, hm, if_true]
  exact ⟨v.s1 + v.s2, v.d, m, hidx, hd.symm, hm, executeFrame_ok hv hstep⟩

/-- `lw` (R161) writes back the word it names, and completes. -/
theorem exec_lw_of_index : exec (.lw d s1 s2) s =
    .next (State.complete (Control.ofInstr (.lw d s1 s2)) s.pc
      { s with regs := writeBack (some d) (some (s.word k)) s.regs }) := by
  obtain ⟨v, hv⟩ := exists_resolveAll hres s
  obtain ⟨-, h1, h2⟩ := operandInt_of_resolveAll hv
  have hidx : (v.s1 + v.s2).toInt = k := by rw [toInt_add_eq_wrap32, hk, h1, h2]
  obtain ⟨hr, -⟩ := (memoryAccessIsBoundsChecked s.mem (v.s1 + v.s2) 0).1 (by omega) (by omega)
  rw [hidx, Int.toNat_natCast] at hr
  have hstep : memoryStep (Control.ofInstr (.lw d s1 s2)) (alu .load v.d v.s1 v.s2 s.pc) s.mem =
      .ok (s.mem, some (s.word k)) := by
    simp [memoryStep, Control.ofInstr, alu, aluResult, hr, State.word]
  exact executeFrame_ok hv hstep

end

end Sys2Proof.Machine
end

