-- ==== Sys2Proof/Proofs/MemoryOrder.lean ====
section
/-! PROOFS. Memory ordering (`20_memory.md` R58): a word keeps its value over a run with no `sw` to it, so a `lw`
finds what the last `sw` to its index left. -/

namespace Sys2Proof.Machine

/-! ### Runs with no store to one word -/

theorem step_mem_wf {s t : State} (hm : s.mem.wf) (h : step s = .next t) : t.mem.wf := by
  rcases step_unchanged_or_exec h with ⟨-, hmem⟩ | ⟨i, -, he⟩
  · exact hmem ▸ hm
  · exact (exec_memoryAfter he).wf hm

/-- The only step that changes a word is a `sw` to it. -/
theorem step_word_of_not_storesTo {s t : State} {k : Nat} (hm : s.mem.wf) (h : step s = .next t)
    (hno : ¬ StoresTo s k) : t.word k = s.word k := by
  by_contra hne
  obtain ⟨-, d, s1, s2, hd, hk, -⟩ := onlyStoreWritesMemory s t k hm h hne
  exact hno ⟨d, s1, s2, hd, hk⟩

/-- A run with no store splits into a first step that is none and a rest with none. -/
theorem NoStoreWithin.first_and_rest {n : Nat} {s t : State} {k : Int} (h : NoStoreWithin (n + 1) s k)
    (hs : step s = .next t) : ¬ StoresTo s k ∧ NoStoreWithin n t k := by
  refine ⟨h 0 s (Nat.succ_pos n) rfl, fun m u hm hu => h (m + 1) u (Nat.succ_lt_succ hm) ?_⟩
  rw [run_succ_of_next m hs, hu]

theorem run_word_of_noStoreWithin {n : Nat} {s t : State} {k : Nat} (hm : s.mem.wf)
    (h : run n s = .next t) (hno : NoStoreWithin n s k) : t.word k = s.word k := by
  induction n generalizing s with
  | zero => rw [Host.Outcome.next.inj h]
  | succ n ih =>
    obtain ⟨u, hu, hr⟩ := run_succ_next h
    obtain ⟨hfirst, hrest⟩ := hno.first_and_rest hu
    rw [ih (step_mem_wf hm hu) hr hrest, step_word_of_not_storesTo hm hu hfirst]

/-! ### What a `sw` leaves to find, and what a `lw` finds -/

/-- After a `sw` the word it names reads as the value stored (R56). -/
theorem word_of_exec_sw {s t : State} {d s1 s2 : Operand} {k : Nat} (hm : s.mem.wf)
    (hres : frameResolves d s1 s2) (hk : (k : Int) = wrap32 (operandInt s s1 + operandInt s s2))
    (hle : k ≤ 1999) (h : exec (.sw d s1 s2) s = .next t) :
    t.mem.wf ∧ (t.word k).toInt = operandInt s d := by
  obtain ⟨idx, v, m, hidx, hv, hw, he⟩ := exec_sw_of_index hres hk hle
  cases he.symm.trans h
  obtain ⟨hwf, hword⟩ := memoryWriteChangesOneWord s.mem m idx v hm hw
  rw [State.word, State.complete_mem, hword, if_pos hidx.symm, hv]
  exact ⟨hwf, rfl⟩

/-- A `lw` leaves the word it names in its destination register; `$zero` still reads as 0 (R124). -/
theorem readReg_of_exec_lw {u : State} {a1 a2 : Operand} {k : Nat} (r : Reg)
    (h1 : resolvable a1 = true) (h2 : resolvable a2 = true)
    (hk : (k : Int) = wrap32 (operandInt u a1 + operandInt u a2)) (hle : k ≤ 1999) :
    ∃ w, exec (.lw (.reg r) a1 a2) u = .next w ∧
      w.readReg r = if r = .zero then 0 else u.word k := by
  refine ⟨_, exec_lw_of_index ⟨rfl, h1, h2⟩ hk hle, ?_⟩
  rw [State.readReg, State.complete_regs]
  split
  · rename_i hz
    rw [hz, RegFile.read_zero]
  · rename_i hz
    exact writeBack_same r (u.word k) u.regs hz

/-- Settles O30: the `sw`, or the reset, fixes the word (`word_of_exec_sw`), the steps between keep it
(`run_word_of_noStoreWithin`), and the `lw` reads it (`readReg_of_exec_lw`). -/
theorem loadReadsMostRecentStore : Obligations.LoadReadsMostRecentStore := by
  constructor
  · intro n s t u d s1 s2 a1 a2 r k hm hres hk h0 hle hsw hrun hno h1 h2 hka hr
    lift k to ℕ using h0
    have hle' : k ≤ 1999 := by omega
    obtain ⟨hwf, hstored⟩ := word_of_exec_sw hm hres hk hle' hsw
    obtain ⟨w, hw, hread⟩ := readReg_of_exec_lw r h1 h2 hka hle'
    refine ⟨w, hw, ?_⟩
    rw [hread, if_neg hr, run_word_of_noStoreWithin hwf hrun hno, hstored]
  · intro n program traceEnable u a1 a2 r k hrun hno h0 hle h1 h2 hka
    lift k to ℕ using h0
    obtain ⟨w, hw, hread⟩ := readReg_of_exec_lw r h1 h2 hka (by omega)
    have hzero : u.word k = 0 := run_word_of_noStoreWithin memory_empty_wf hrun hno
    exact ⟨w, hw, by rw [hread, hzero, ite_self]⟩

end Sys2Proof.Machine
end

