-- ==== Sys2Proof/Proofs/Encoding.lean ====
section
/-! PROOFS. Decoding and encoding (`30_encoding.md`): each is the other's inverse on well-formed instructions. -/

namespace Sys2Proof

open Machine (instr_cases)

/-! ### The twelve `F4` opcodes at once -/

theorem Opcode.encode_instr {o : Opcode} (ho : o ≠ .nop) (d s1 s2 : Operand) :
    encode (o.instr d s1 s2) = encodeFrame o d s1 s2 := by
  cases o with
  | nop => exact absurd rfl ho
  | _ => rfl

theorem Opcode.wf_instr {o : Opcode} (ho : o ≠ .nop) (d s1 s2 : Operand) :
    (o.instr d s1 s2).wf = operandsWf d s1 s2 := by
  cases o with
  | nop => exact absurd rfl ho
  | _ => rfl

theorem operandsWf_iff {d s1 s2 : Operand} :
    operandsWf d s1 s2 = true ↔ d.wf = true ∧ s1.wf = true ∧ s2.wf = true := by
  simp [operandsWf, and_assoc]

/-! ### Round trips -/

/-- A frame is read back token by token (R72): the opcode by its token, each operand by its own. -/
theorem decode_encodeFrame (o : Opcode) {d s1 s2 : Operand} (h : operandsWf d s1 s2 = true)
    (rest : List Token) : decode (encodeFrame o d s1 s2 ++ rest) = .instr (o.instr d s1 s2) := by
  obtain ⟨hd, h1, h2⟩ := operandsWf_iff.1 h
  have hframe := decode_frame o d.token s1.token s2.token rest
  rwa [d.ofToken_token hd, s1.ofToken_token h1, s2.ofToken_token h2] at hframe

/-- Settles O8: a lone token is read as itself, and the twelve frames by `decode_encodeFrame`. -/
theorem decodeOfEncode : Obligations.DecodeOfEncode := by
  intro i rest h
  rcases instr_cases i with rfl | ⟨op, rfl⟩ | ⟨o, d, s1, s2, ho, rfl⟩
  · exact decode_nop rest
  · exact decode_unrecognised op rest (of_decide_eq_true h)
  · rw [o.wf_instr ho] at h
    rw [o.encode_instr ho]
    exact decode_encodeFrame o h rest

theorem decode_wf {toks : List Token} {i : Instr} (h : decode toks = .instr i) : i.wf = true := by
  rcases decode_cases toks with ⟨-, hd⟩ | ⟨op, rest, -, hop, hd⟩ | ⟨rest, -, hd⟩ |
    ⟨o, rest, -, -, -, hd⟩ | ⟨o, t1, t2, t3, rest, ho, -, hd⟩ <;> cases hd.symm.trans h
  · exact decide_eq_true hop
  · rfl
  · rw [o.wf_instr ho, operandsWf_iff]
    exact ⟨Operand.ofToken_wf t1, Operand.ofToken_wf t2, Operand.ofToken_wf t3⟩

/-- Settles O9: what is decoded is well-formed (`decode_wf`), so `decodeOfEncode` reads it again. -/
theorem decodedIsWellFormed : Obligations.DecodedIsWellFormed := by
  intro toks i h
  have hwf := decode_wf h
  have hback := decodeOfEncode i [] hwf
  rw [List.append_nil] at hback
  exact ⟨hwf, hback⟩

/-- Settles O7: the shape of each frame by the decoder's laws, its operand tokens by evaluation. -/
theorem writtenOutFramesDecode : Obligations.WrittenOutFramesDecode :=
  ⟨decode_frame .j ['8'] ['0'] ['0'] [],
    decode_frame .beq ['$', 't', '0'] ['$', 't', '1'] ['-', '4'] [],
    decode_frame .addi ['$', 'z', 'e', 'r', 'o'] ['0', '0', '7'] ['+', '5'] [],
    decode_frame .lw ['$', 's', '7'] ['$', 's', 'p'] ['1'] [],
    decode_nop [['j']],
    decode_unrecognised ['A', 'D', 'D'] [] (by decide),
    by decide⟩

end Sys2Proof
end

