-- ==== Sys2Proof/Proofs/AddTokens.lean ====
section
/-! PROOFS. The tokens `add` and `addi` (`30_encoding.md` R81): the frame, the step and its faults are the same
under either, and no meaning reads the token store. -/

namespace Sys2Proof.Machine

/-! ### A machine under another token store -/

/-- The same machine with another token stream in its store. -/
def State.withProgram (s : State) (p : List Token) : State := { s with program := p }

theorem State.complete_withProgram (s : State) (p : List Token) (c : Control) (epc : Word) :
    (s.withProgram p).complete c epc = (s.complete c epc).withProgram p := by
  cases htrace : s.traceEnable <;>
    simp [State.complete, State.emitStep, State.withProgram, State.snapshot, htrace]

theorem resolveAll_withProgram (s : State) (p : List Token) (d s1 s2 : Operand) :
    resolveAll (s.withProgram p) d s1 s2 = resolveAll s d s1 s2 := rfl

/-- Once its frame is fetched, an `F4` instruction neither reads nor changes the token store. -/
theorem executeFrame_withProgram {c : Control} {dest : Option Operand} {d s1 s2 : Operand}
    {s t : State} (p : List Token) (h : executeFrame c dest d s1 s2 s = .next t) :
    executeFrame c dest d s1 s2 (s.withProgram p) = .next (t.withProgram p) := by
  have hres := resolveAll_withProgram s p d s1 s2
  rcases executeFrame_cases h with ⟨f, hf, rfl⟩ | ⟨v, f, hv, hm, rfl⟩ | ⟨v, m, value, hv, hm, rfl⟩
  · exact executeFrame_error (hres.trans hf)
  · exact executeFrame_memory_error (hres.trans hv) hm
  · rw [executeFrame_ok (hres.trans hv) hm, ← State.complete_withProgram]
    rfl

/-- No meaning reads or writes the token store (R36): the fetch unit alone reads it. -/
theorem exec_withProgram {i : Instr} {s t : State} (p : List Token) (h : exec i s = .next t) :
    exec i (s.withProgram p) = .next (t.withProgram p) := by
  rcases instr_cases i with rfl | ⟨op, rfl⟩ | ⟨o, d, s1, s2, ho, rfl⟩
  · cases h
    exact congrArg _ (s.complete_withProgram p (Control.ofInstr .nop) (s.pc - 3))
  · cases h
    exact congrArg _ (s.complete_withProgram p Control.none s.pc)
  · rw [exec_instr o ho] at h ⊢
    exact executeFrame_withProgram p h

/-! ### The fetch, with one opcode token in the place of another -/

theorem fetch_of_decode_truncated {s : State} (hpc : 0 ≤ s.pc.toInt)
    (h : decode (s.program.drop s.pc.toInt.toNat) = .truncated) :
    fetch s = .fault (.truncatedFrame s.pc.toInt) := by
  rw [fetch, if_neg hpc.not_gt, h]

theorem fetch_of_decode_instr {s : State} {i : Instr} (hpc : 0 ≤ s.pc.toInt)
    (h : decode (s.program.drop s.pc.toInt.toNat) = .instr i) : fetch s = .instr i := by
  rw [fetch, if_neg hpc.not_gt, h]

/-- The stream from an index on, after the token there is replaced. -/
theorem drop_set_of_tok {s : State} {i : Int} {op : Token} (op' : Token) (h : s.tok i = some op) :
    (s.program.set i.toNat op').drop i.toNat = op' :: s.program.drop (i + 1).toNat := by
  rw [List.drop_set, if_neg (lt_irrefl _), Nat.sub_self, drop_of_tok h, List.set_cons_zero]

/-- The two tokens are cut short by the same streams, and otherwise read the same three operands. -/
theorem decode_add_addi_cases (rest : List Token) :
    (decode (Opcode.add.token :: rest) = .truncated ∧
      decode (Opcode.addi.token :: rest) = .truncated) ∨
    ∃ d s1 s2, decode (Opcode.add.token :: rest) = .instr (.add d s1 s2) ∧
      decode (Opcode.addi.token :: rest) = .instr (.addi d s1 s2) := by
  match rest with
  | [] => exact .inl ⟨rfl, rfl⟩
  | [_] => exact .inl ⟨rfl, rfl⟩
  | [_, _] => exact .inl ⟨rfl, rfl⟩
  | t1 :: t2 :: t3 :: rest =>
    exact .inr ⟨_, _, _, decode_frame .add t1 t2 t3 rest, decode_frame .addi t1 t2 t3 rest⟩

/-- `add` and `addi` have one row of the decode table (R104) and one destination, so one meaning. -/
theorem exec_addi_eq_exec_add (d s1 s2 : Operand) (s : State) :
    exec (.addi d s1 s2) s = exec (.add d s1 s2) s := rfl

/-- Settles O25: a frame cut short raises the same fault under both tokens, a whole one is the same step
(`exec_addi_eq_exec_add`), and it reads nothing of the token store (`exec_withProgram`). -/
theorem addAndAddImmediateAgree : Obligations.AddAndAddImmediateAgree := by
  intro s t hs htok hstep
  have hpc := (State.tok_eq_some.1 htok).1
  have hadd := congrArg decode (drop_of_tok htok)
  have haddi := congrArg decode (drop_set_of_tok Opcode.addi.token htok)
  let s' := s.withProgram (s.program.set s.pc.toInt.toNat Opcode.addi.token)
  have hs' : s'.status = .running := hs
  rcases decode_add_addi_cases (s.program.drop (s.pc.toInt + 1).toNat) with
    ⟨h₁, h₂⟩ | ⟨d, s1, s2, h₁, h₂⟩
  · cases (step_fetchFault hs (fetch_of_decode_truncated hpc (hadd.trans h₁))).symm.trans hstep
    exact step_fetchFault hs' (fetch_of_decode_truncated hpc (haddi.trans h₂))
  · have hexec := (step_instr hs (fetch_of_decode_instr hpc (hadd.trans h₁))).symm.trans hstep
    calc step s' = exec (.addi d s1 s2) s' :=
          step_instr hs' (fetch_of_decode_instr hpc (haddi.trans h₂))
      _ = exec (.add d s1 s2) s' := exec_addi_eq_exec_add d s1 s2 s'
      _ = .next (t.withProgram s'.program) := exec_withProgram s'.program hexec

end Sys2Proof.Machine
end

