-- ==== Sys2Proof/Proofs/OperandPorts.lean ====
section
/-! PROOFS. The two ends of an instruction's operands (`40_engine.md`): the resolver, with the grammar of a literal
behind it (R76, R77, R110), and the write-back port (R124). -/

namespace Sys2Proof

open Machine (IsDigits decimalNumber Spells IsLiteral)

/-! ### Runs of digits -/

theorem digitValue_eq_some {c : Char} (h : 48 ≤ c.toNat ∧ c.toNat ≤ 57) :
    digitValue c = some (c.toNat - 48) := if_pos h

theorem digitValue_eq_none {c : Char} (h : ¬ (48 ≤ c.toNat ∧ c.toNat ≤ 57)) : digitValue c = none :=
  if_neg h

/-- Reading a run on from `acc`: its decimal value if every character is a digit, and nothing otherwise. -/
theorem digitsValue_cases (acc : Nat) (cs : List Char) :
    ((∀ c ∈ cs, 48 ≤ c.toNat ∧ c.toNat ≤ 57) ∧ ∃ n : Nat, digitsValue acc cs = some n ∧
      cs.foldl (fun n c => 10 * n + ((c.toNat : Int) - 48)) (acc : Int) = n) ∨
    (¬ (∀ c ∈ cs, 48 ≤ c.toNat ∧ c.toNat ≤ 57) ∧ digitsValue acc cs = none) := by
  induction cs generalizing acc with
  | nil => exact .inl ⟨by simp, acc, rfl, rfl⟩
  | cons c cs ih =>
    by_cases hc : 48 ≤ c.toNat ∧ c.toNat ≤ 57
    · have hacc : ((10 * acc + (c.toNat - 48) : Nat) : Int) = 10 * acc + ((c.toNat : Int) - 48) := by
        omega
      have hread := ih (10 * acc + (c.toNat - 48))
      rw [hacc] at hread
      simpa only [digitsValue, digitValue_eq_some hc, List.forall_mem_cons, hc, true_and, and_self,
        List.foldl_cons] using hread
    · exact .inr ⟨fun h => hc (h c List.mem_cons_self), by rw [digitsValue, digitValue_eq_none hc]⟩

/-- All the reading of an unsigned literal can do (R76). -/
theorem unsignedLiteral_cases (cs : List Char) :
    (IsDigits cs ∧ ∃ n : Nat, unsignedLiteral cs = some n ∧ decimalNumber cs = n) ∨
    (¬ IsDigits cs ∧ unsignedLiteral cs = none) := by
  cases cs with
  | nil => exact .inr ⟨fun h => h.1 rfl, rfl⟩
  | cons c cs =>
    rcases digitsValue_cases 0 (c :: cs) with ⟨hdig, hn⟩ | ⟨hdig, hnone⟩
    · exact .inl ⟨⟨List.cons_ne_nil c cs, hdig⟩, hn⟩
    · exact .inr ⟨fun h => hdig h.2, hnone⟩

/-! ### Literals -/

theorem toInt_wordOfInt {n : Int} (h : -2147483648 ≤ n ∧ n ≤ 2147483647) : (wordOfInt n).toInt = n := by
  rw [wordOfInt, BitVec.toInt_ofInt]
  exact Int.bmod_eq_of_le (by omega) (by omega)

theorem toInt_mem_range (v : Word) : -2147483648 ≤ v.toInt ∧ v.toInt ≤ 2147483647 := by
  have hlow := BitVec.le_toInt v
  have hhigh := BitVec.toInt_lt (x := v)
  omega

/-- The word of an integer is the one that reads as it, if there is one (R77). -/
theorem fittingWord_eq_some_iff {n : Int} {v : Word} : fittingWord n = some v ↔ v.toInt = n := by
  constructor
  · intro h
    obtain ⟨hrange, hv⟩ := Option.ite_none_right_eq_some.1 h
    rw [← Option.some.inj hv, toInt_wordOfInt hrange]
  · rintro rfl
    exact fittingWord_toInt v

theorem literalValue_minus (cs : List Char) :
    literalValue ('-' :: cs) = (unsignedLiteral cs).bind fun n => fittingWord (-(n : Int)) := by
  rw [literalValue, if_pos rfl]
  cases unsignedLiteral cs <;> rfl

/-- A leading `+` is read as any other character that is no digit (R10, D3). -/
theorem literalValue_of_ne_minus {c : Char} (h : c ≠ '-') (cs : List Char) :
    literalValue (c :: cs) = (unsignedLiteral (c :: cs)).bind fun n => fittingWord (n : Int) := by
  rw [literalValue, if_neg h, if_neg fun hplus => Bool.false_ne_true hplus.2]
  cases unsignedLiteral (c :: cs) <;> rfl

theorem spells_minus_iff {cs : List Char} {n : Int} :
    Spells ('-' :: cs) n ↔ IsDigits cs ∧ n = -decimalNumber cs := by
  constructor
  · rintro (⟨hdig, -⟩ | ⟨ds, hds, h⟩)
    · exact absurd (hdig.2 '-' List.mem_cons_self) (by decide)
    · exact (List.cons.inj hds).2 ▸ h
  · exact fun h => .inr ⟨cs, rfl, h⟩

theorem spells_of_ne_minus_iff {c : Char} (hc : c ≠ '-') {cs : List Char} {n : Int} :
    Spells (c :: cs) n ↔ IsDigits (c :: cs) ∧ n = decimalNumber (c :: cs) := by
  constructor
  · rintro (h | ⟨ds, hds, -⟩)
    · exact h
    · exact absurd (List.cons.inj hds).1 hc
  · exact .inl

/-- A token is read as a word exactly if it spells the integer the word reads as. -/
theorem literalValue_eq_some_iff {t : Token} {v : Word} :
    literalValue t = some v ↔ Spells t v.toInt := by
  cases t with
  | nil => simp [literalValue, Spells, IsDigits]
  | cons c cs =>
    by_cases hc : c = '-'
    · subst hc
      rw [literalValue_minus, spells_minus_iff]
      rcases unsignedLiteral_cases cs with ⟨hdig, n, hu, hn⟩ | ⟨hdig, hu⟩
      · simp [hu, hdig, hn, fittingWord_eq_some_iff]
      · simp [hu, hdig]
    · rw [literalValue_of_ne_minus hc, spells_of_ne_minus_iff hc]
      rcases unsignedLiteral_cases (c :: cs) with ⟨hdig, n, hu, hn⟩ | ⟨hdig, hu⟩
      · simp [hu, hdig, hn, fittingWord_eq_some_iff]
      · simp [hu, hdig]

/-- Every literal is read as the word of its value. -/
theorem literalValue_of_isLiteral {t : Token} {n : Int} (h : IsLiteral t n) :
    literalValue t = some (wordOfInt n) := by
  obtain ⟨hspells, hrange⟩ := h
  rw [literalValue_eq_some_iff, toInt_wordOfInt hrange]
  exact hspells

/-- No other token is read as a literal. -/
theorem literalValue_eq_none {t : Token} (h : ∀ n, ¬ IsLiteral t n) : literalValue t = none :=
  Option.eq_none_iff_forall_ne_some.2 fun v hv =>
    h v.toInt ⟨literalValue_eq_some_iff.1 hv, toInt_mem_range v⟩

/-! ### Operand tokens, sorted as R110 sorts them -/

theorem Operand.ofToken_name (r : Reg) : Operand.ofToken r.name = .reg r :=
  Operand.ofToken_token (.reg r) rfl

theorem Operand.ofToken_of_isLiteral {t : Token} {n : Int} (hr : ∀ r, t ≠ Reg.name r)
    (h : IsLiteral t n) : Operand.ofToken t = .lit (wordOfInt n) := by
  simp only [Operand.ofToken, Reg.ofToken_eq_none.2 hr, literalValue_of_isLiteral h]

theorem Operand.ofToken_eq_malformed {t : Token} (hr : ∀ r, t ≠ Reg.name r)
    (h : ∀ n, ¬ IsLiteral t n) : Operand.ofToken t = .malformed t := by
  simp only [Operand.ofToken, Reg.ofToken_eq_none.2 hr, literalValue_eq_none h]

end Sys2Proof

namespace Sys2Proof.Machine

/-- Settles O3: `Operand.ofToken` sorts the token by name and by literal, and each form resolves as R110 says. -/
theorem resolverReadsNameThenLiteral : Obligations.ResolverReadsNameThenLiteral := by
  intro s slot t
  refine ⟨?_, fun hr => ⟨fun n hn => ⟨wordOfInt n, toInt_wordOfInt hn.2, ?_⟩, fun hn => ?_⟩⟩
  · rintro r rfl
    rw [Operand.ofToken_name]
    rfl
  · rw [Operand.ofToken_of_isLiteral hr hn]
    rfl
  · rw [Operand.ofToken_eq_malformed hr hn]
    rfl

/-- Settles O4: a register name by `writeBack_read`; no other destination lets anything be written. -/
theorem writeBackChangesOnlyNamedRegister : Obligations.WriteBackChangesOnlyNamedRegister := by
  intro f v r r' l t
  refine ⟨?_, rfl, rfl, rfl, rfl, RegFile.read_zero f⟩
  rw [writeBack_read]
  by_cases hz : r' = .zero
  · subst hz
    simp
  · simp [hz]

end Sys2Proof.Machine
end

