-- ==== Sys2Proof/Proofs/FetchAndRun.lean ====
section
/-! PROOFS. How the step of a running machine fetches (`40_engine.md` R101, R106, R132) and what status it leaves
(R136). -/

namespace Sys2Proof

theorem Opcode.token_injective {o o' : Opcode} (h : o.token = o'.token) : o = o' := by
  have htok := congrArg Opcode.ofToken h
  rw [Opcode.ofToken_token, Opcode.ofToken_token] at htok
  exact Option.some.inj htok

/-- An `F4` opcode token with fewer than three tokens after it is a frame cut short (R63, R106). -/
theorem decode_truncated {o : Opcode} (ho : o ≠ .nop) {rest : List Token} (h : rest.length < 3) :
    decode (o.token :: rest) = .truncated := by
  rcases decode_cases (o.token :: rest) with ⟨hnil, -⟩ | ⟨op, _, heq, hop, -⟩ | ⟨_, heq, -⟩ |
    ⟨_, _, -, -, -, hd⟩ | ⟨_, t1, t2, t3, _, -, heq, -⟩
  · cases hnil
  · rw [← (List.cons.inj heq).1, Opcode.ofToken_token] at hop
    cases hop
  · exact absurd (Opcode.token_injective (List.cons.inj heq).1) ho
  · exact hd
  · rw [(List.cons.inj heq).2] at h
    simp only [List.length_cons] at h
    omega

end Sys2Proof

namespace Sys2Proof.Machine

/-! ### What the fetch unit finds -/

theorem fetch_eq_pastEnd_iff {s : State} :
    fetch s = .pastEnd ↔ (s.program.length : Int) ≤ s.pc.toInt := by
  rcases fetch_cases s with ⟨hpc, hf⟩ | ⟨-, -, hlen, hf⟩ | ⟨-, -, hlen, -, hf⟩ | ⟨-, hlen, i, -, hf⟩ <;>
    simp [hf] <;> omega

/-- Settles O10: what is decoded at the pc is what the fetch unit hands on. -/
theorem stepRunsDecodedInstruction : Obligations.StepRunsDecodedInstruction :=
  fun _ _ hs hpc hd => step_instr hs (fetch_of_decode_instr hpc hd)

/-- A cut-short and a whole frame of an `F4` opcode, as the fetch unit takes them. -/
theorem fetchesFrame_instr {o : Opcode} (ho : o ≠ .nop) : FetchesFrame o.token o.instr := by
  intro s hs htok
  have hpc := (State.tok_eq_some.1 htok).1
  have hdrop := drop_of_tok htok
  refine ⟨fun hlen => ⟨s.ctl, ?_⟩, fun t1 t2 t3 h1 h2 h3 => ?_⟩
  · have hrest : (s.program.drop (s.pc.toInt + 1).toNat).length < 3 := by
      rw [List.length_drop]
      omega
    exact step_fetchFault hs (fetch_of_decode_truncated hpc (hdrop ▸ decode_truncated ho hrest))
  · have hframe : s.program.drop s.pc.toInt.toNat =
        o.token :: t1 :: t2 :: t3 :: s.program.drop (s.pc.toInt + 3 + 1).toNat := by
      rw [hdrop, drop_of_tok h1, add_assoc, one_add_one_eq_two, drop_of_tok h2, add_assoc,
        two_add_one_eq_three, drop_of_tok h3]
    exact step_instr hs (fetch_of_decode_instr hpc (hframe ▸ decode_frame o t1 t2 t3 _))

/-- Settles O17: `fetchesFrame_instr` for each of the twelve opcodes. -/
theorem fourTokenFramesAreFetched : Obligations.FourTokenFramesAreFetched :=
  ⟨fetchesFrame_instr (o := .j) (by decide), fetchesFrame_instr (o := .beq) (by decide),
    fetchesFrame_instr (o := .add) (by decide), fetchesFrame_instr (o := .addi) (by decide),
    fetchesFrame_instr (o := .sub) (by decide), fetchesFrame_instr (o := .sw) (by decide),
    fetchesFrame_instr (o := .lw) (by decide), fetchesFrame_instr (o := .sll) (by decide),
    fetchesFrame_instr (o := .srl) (by decide), fetchesFrame_instr (o := .mul) (by decide),
    fetchesFrame_instr (o := .and) (by decide), fetchesFrame_instr (o := .or) (by decide)⟩

/-! ### The status a step leaves -/

/-- An instruction keeps the run status or takes a fault; halting is not an instruction (R132). -/
theorem exec_status {i : Instr} {s t : State} (h : exec i s = .next t) :
    t.status = s.status ∨ ∃ f, t.status = .faulted f := by
  rcases exec_cases h with ⟨f, -, rfl⟩ | ⟨epc, m, f, -, -, rfl⟩
  · exact .inr ⟨f, rfl⟩
  · exact .inl (State.complete_status ..)

/-- Settles O11: the fetch test finds the end of the stream exactly if `pc >= L` (`fetch_eq_pastEnd_iff`), and no
fault and no instruction halts. -/
theorem haltExactlyAtStreamEnd : Obligations.HaltExactlyAtStreamEnd := by
  refine ⟨fun s hs hlen => step_pastEnd hs (fetch_eq_pastEnd_iff.2 hlen), fun s t hs h ht => ?_⟩
  rcases step_cases h with ⟨hs', -⟩ | ⟨-, hf, -⟩ | ⟨-, f, -, rfl⟩ | ⟨-, i, -, he⟩
  · cases hs.symm.trans hs'
  · exact fetch_eq_pastEnd_iff.1 hf
  · cases ht
  · rcases exec_status he with hkeep | ⟨f, hf⟩
    · cases (hs.symm.trans hkeep.symm).trans ht
    · cases hf.symm.trans ht

/-- No state's step is refused: every arm of `exec` has its meaning. -/
theorem step_ne_refused (s : State) (r : Refusal) : step s ≠ .refused r := by
  intro h
  rcases hs : s.status with _ | _ | f
  · obtain ⟨t, ht⟩ := exists_step_of_running hs
    cases ht.symm.trans h
  · cases (step_halted hs).symm.trans h
  · cases (step_faulted hs).symm.trans h

/-- Settles O14: the step by the run status, `exists_step_of_running` for a running machine. -/
theorem runningMachineHasNextState : Obligations.RunningMachineHasNextState :=
  fun s => ⟨exists_step_of_running, step_ne_refused s, fun _ => status_of_step_fault⟩

end Sys2Proof.Machine
end

