-- ==== Sys2Proof/Proofs/ControlTriple.lean ====
section
/-! PROOFS. The decode table (`40_engine.md` R104): the triple a completed step leaves is the row of the opcode token
at the pc. -/

namespace Sys2Proof

theorem Opcode.mem_all (o : Opcode) : o ∈ Opcode.all := by cases o <;> decide

/-- The opcode token alone selects the instruction (R70, R82). -/
theorem decode_cons_cases {op : Token} {rest : List Token} {i : Instr}
    (h : decode (op :: rest) = .instr i) :
    (Opcode.ofToken op = none ∧ i = .unrecognised op) ∨
    ∃ (o : Opcode) (d s1 s2 : Operand), op = o.token ∧ i = o.instr d s1 s2 := by
  rcases decode_cases (op :: rest) with ⟨hnil, -⟩ | ⟨_, _, heq, hop, hd⟩ | ⟨_, heq, hd⟩ |
    ⟨_, _, -, -, -, hd⟩ | ⟨o, t1, t2, t3, _, -, heq, hd⟩
  · cases hnil
  · cases heq
    cases hd.symm.trans h
    exact .inl ⟨hop, rfl⟩
  · cases hd.symm.trans h
    -- `nop` has no operands: any three stand for none.
    exact .inr ⟨.nop, .lit 0, .lit 0, .lit 0, (List.cons.inj heq).1, rfl⟩
  · cases hd.symm.trans h
  · cases hd.symm.trans h
    exact .inr ⟨o, _, _, _, (List.cons.inj heq).1, rfl⟩

end Sys2Proof

namespace Sys2Proof.Machine

/-- The decode table and the model's decoder have one row for each opcode, whatever the operands. -/
theorem decodeTable_eq_map (d s1 s2 : Operand) :
    decodeTable = Opcode.all.map fun o => (o.token, (Control.ofInstr (o.instr d s1 s2)).triple) := rfl

theorem mem_decodeTable_iff (d s1 s2 : Operand) {op : Token} {triple : Nat × Nat × Nat} :
    (op, triple) ∈ decodeTable ↔
      ∃ o : Opcode, o.token = op ∧ (Control.ofInstr (o.instr d s1 s2)).triple = triple := by
  simp [decodeTable_eq_map d s1 s2, Opcode.mem_all]

/-- An instruction that completes leaves its own control triple. -/
theorem exec_ctl_of_running {i : Instr} {s t : State} (h : exec i s = .next t)
    (ht : t.status = .running) : t.ctl = Control.ofInstr i := by
  rcases exec_cases h with ⟨f, -, rfl⟩ | ⟨epc, m, f, -, -, rfl⟩
  · cases ht
  · exact State.complete_ctl ..

/-- A step that leaves a running machine running is the instruction the fetch unit finds. -/
theorem step_exec_of_running {s t : State} (hs : s.status = .running) (h : step s = .next t)
    (ht : t.status = .running) : ∃ i, fetch s = .instr i ∧ exec i s = .next t := by
  rcases step_cases h with ⟨hs', -⟩ | ⟨-, -, rfl⟩ | ⟨-, f, -, rfl⟩ | ⟨-, hi⟩
  · cases hs.symm.trans hs'
  · cases ht
  · cases ht
  · exact hi

/-- Settles O43: the step is the instruction the token at the pc selects (`decode_cons_cases`), which leaves its own
triple, and that is the table's row of the token, there being one row for each opcode. -/
theorem controlTripleFollowsDecodeTable : Obligations.ControlTripleFollowsDecodeTable := by
  intro s t op hs htok h ht
  obtain ⟨i, hf, he⟩ := step_exec_of_running hs h ht
  have hd := (decode_of_fetch hf).2
  rw [drop_of_tok htok] at hd
  rw [exec_ctl_of_running he ht]
  rcases decode_cons_cases hd with ⟨hnone, rfl⟩ | ⟨o, d, s1, s2, rfl, rfl⟩
  · refine ⟨fun triple hmem => ?_, fun _ => rfl⟩
    obtain ⟨o, ho, -⟩ := (mem_decodeTable_iff (.lit 0) (.lit 0) (.lit 0)).1 hmem
    exact absurd ho.symm (Opcode.ofToken_eq_none.1 hnone o)
  · refine ⟨fun triple hmem => ?_, fun hno => ?_⟩
    · obtain ⟨o', ho, htriple⟩ := (mem_decodeTable_iff d s1 s2).1 hmem
      rwa [Opcode.token_injective ho] at htriple
    · exact absurd ((mem_decodeTable_iff d s1 s2).2 ⟨o, rfl, rfl⟩) (hno _)

end Sys2Proof.Machine
end

