-- ==== Sys2Proof/Proofs/FrameRules.lean ====
section
/-! PROOFS. The two ends of an `F4` instruction after its frame is fetched (`40_engine.md` R136), in the terms the
statements use: it takes the fault of its first malformed operand, or it completes. -/

namespace Sys2Proof.Machine

/-! ### The fault of a malformed operand -/

/-- An `F4` instruction takes the fault the resolver answers. -/
theorem takesFault_instr_of_resolveAll {o : Opcode} (ho : o ≠ .nop) {s : State} {d s1 s2 : Operand}
    {f : Fault} (h : resolveAll s d s1 s2 = .error f) : TakesFault (exec (o.instr d s1 s2) s) s f :=
  ⟨s.ctl, (exec_instr o ho d s1 s2 s).trans (executeFrame_error h)⟩

/-- The operand in each slot is looked at only once those before it have their values (R108). -/
theorem faultsOnMalformed_instr {o : Opcode} (ho : o ≠ .nop) : FaultsOnMalformed o.instr := by
  intro s t d s1 s2
  refine ⟨?_, fun hd => ?_, fun hd h1 => ?_⟩
  · rintro rfl
    exact takesFault_instr_of_resolveAll ho rfl
  · rintro rfl
    obtain ⟨dv, hdv⟩ := exists_resolve hd s 1
    exact takesFault_instr_of_resolveAll ho (by simp only [resolveAll, hdv]; rfl)
  · rintro rfl
    obtain ⟨dv, hdv⟩ := exists_resolve hd s 1
    obtain ⟨v1, hv1⟩ := exists_resolve h1 s 2
    exact takesFault_instr_of_resolveAll ho (by simp only [resolveAll, hdv, hv1]; rfl)

/-! ### Completion -/

/-- An instruction that ends in `State.complete` under its own triple completes: the end of the step (R128, R212)
fixes the fields left. -/
theorem completesWith_of_exec_eq_complete {i : Instr} {s : State} {epc : Word} {m : Memory} {f : RegFile}
    {pc : Int} {regs : Reg → Int} {words : Nat → Int}
    (h : exec i s = .next (State.complete (Control.ofInstr i) epc { s with mem := m, regs := f }))
    (hpc : (epc + 4).toInt = pc) (hregs : ∀ r, (f.read r).toInt = regs r)
    (hwords : ∀ k, (m.word k).toInt = words k) :
    CompletesWith i s (Control.ofInstr i).triple pc regs words := by
  refine ⟨_, h, ?_, ?_, fun r => ?_, fun k => ?_, ?_, ?_, ?_, ?_⟩
  · rw [State.complete_ctl]
  · rwa [State.complete_pc]
  · rw [State.readReg, State.complete_regs, hregs]
  · rw [State.word, State.complete_mem, hwords]
  · exact State.complete_status ..
  · exact State.complete_program ..
  · exact State.complete_traceEnable ..
  · simp only [State.complete_trace, State.complete_regs, State.complete_mem, State.complete_ctl]

/-- With neither memory signal the memory step hands the ALU's result on (R120). -/
theorem memoryStep_of_no_access {c : Control} (hw : c.memWrite = false) (hr : c.memRead = false)
    (out : AluOutput) (m : Memory) : memoryStep c out m = .ok (m, out.result) := by
  simp [memoryStep, hw, hr]

/-- An `F4` instruction with neither memory signal completes once its operands resolve: the ALU gives the effective
pc and the value for write-back, and data memory stays. -/
theorem completesWith_instr_of_no_access {o : Opcode} (ho : o ≠ .nop) {s : State} {d s1 s2 : Operand}
    {v : OperandValues} {out : AluOutput} {pc : Int} {regs : Reg → Int}
    (hw : (Control.ofInstr (o.instr d s1 s2)).memWrite = false)
    (hr : (Control.ofInstr (o.instr d s1 s2)).memRead = false)
    (hv : resolveAll s d s1 s2 = .ok v)
    (hout : alu (Control.ofInstr (o.instr d s1 s2)).aluClass v.d v.s1 v.s2 s.pc = out)
    (hpc : (out.epc + 4).toInt = pc)
    (hregs : ∀ r, ((writeBack (destOf o d) out.result s.regs).read r).toInt = regs r) :
    CompletesWith (o.instr d s1 s2) s (Control.ofInstr (o.instr d s1 s2)).triple pc regs (wordsOf s) := by
  subst hout
  have hexec := (exec_instr o ho d s1 s2 s).trans (executeFrame_ok hv (memoryStep_of_no_access hw hr _ _))
  exact completesWith_of_exec_eq_complete hexec hpc hregs fun _ => rfl

/-! ### The uniform advance (R128) -/

/-- Wrapping once at the end is enough (R11). -/
theorem wrap32_wrap32_add (m n : Int) : wrap32 (wrap32 m + n) = wrap32 (m + n) := by
  simp only [wrap32_eq_bmod, Int.bmod_add_bmod]

/-- The pc after the uniform advance, as an integer. -/
theorem toInt_add_four (v : Word) : (v + 4).toInt = wrap32 (v.toInt + 4) :=
  toInt_add_eq_wrap32 v 4

end Sys2Proof.Machine
end

