-- ==== Sys2Proof/Proofs/ControlTransfer.lean ====
section
/-! PROOFS. `j` and `beq` (`41_control_transfer.md`). Neither has a memory signal or a value to write back, so each
completes with the pc its ALU class gives. -/

namespace Sys2Proof.Machine

/-- Settles O20: the ALU takes 4 off the target and the uniform advance adds it again (R140). -/
theorem jumpGoesToFirstOperand : Obligations.JumpGoesToFirstOperand := by
  refine ⟨fetchesFrame_instr (o := .j) (by decide), faultsOnMalformed_instr (o := .j) (by decide),
    fun s d s1 s2 hres => ?_⟩
  obtain ⟨v, hv⟩ := exists_resolveAll hres s
  obtain ⟨hd, -, -⟩ := operandInt_of_resolveAll hv
  have hpc : (v.d - 4 + 4).toInt = operandInt s d := by rw [BitVec.sub_add_cancel, hd]
  exact completesWith_instr_of_no_access (o := .j) (by decide) rfl rfl hv rfl hpc fun _ => rfl

/-! ### `beq` -/

/-- `beq` with operands that resolve completes with the effective pc of ALU class 2 (R114), whether taken or not. -/
theorem completesWith_beq {s : State} {d s1 s2 : Operand} {v : OperandValues} {epc : Word}
    (hv : resolveAll s d s1 s2 = .ok v) (hepc : (if v.d = v.s1 then s.pc + v.s2 else s.pc) = epc) :
    CompletesWith (.beq d s1 s2) s (2, 0, 0) (wrap32 (epc.toInt + 4)) (regsOf s) (wordsOf s) :=
  completesWith_instr_of_no_access (o := .beq) (out := ⟨none, none, epc⟩) (by decide) rfl rfl hv
    (congrArg (AluOutput.mk none none) hepc) (toInt_add_four epc) fun _ => rfl

/-- Settles O21: two words are equal exactly if their signed readings are, which decides the case of the effective
pc in `completesWith_beq`. -/
theorem branchIfEqualAddsDisplacement : Obligations.BranchIfEqualAddsDisplacement := by
  refine ⟨fetchesFrame_instr (o := .beq) (by decide), faultsOnMalformed_instr (o := .beq) (by decide),
    fun s d s1 s2 hres => ?_⟩
  obtain ⟨v, hv⟩ := exists_resolveAll hres s
  obtain ⟨hd, h1, h2⟩ := operandInt_of_resolveAll hv
  have heq : operandInt s d = operandInt s s1 ↔ v.d = v.s1 := by rw [hd, h1, BitVec.toInt_inj]
  refine ⟨fun htaken => ?_, fun hnot => ?_⟩
  · have h := completesWith_beq hv (if_pos (heq.1 htaken))
    rwa [toInt_add_eq_wrap32, wrap32_wrap32_add, ← h2] at h
  · exact completesWith_beq hv (if_neg (mt heq.2 hnot))

end Sys2Proof.Machine
end

