-- ==== Sys2Proof/Proofs/Arithmetic.lean ====
section
/-! PROOFS. `add`, `addi`, `sub` and `mul` (`42_arithmetic.md`). What the four share with the shifts and the bitwise
instructions is said first: the ALU answers one word, and that word goes to the destination. -/

namespace Sys2Proof.Machine

/-! ### Instructions that write the ALU's result back -/

/-- The registers after the write-back of a word, read as signed (R124). -/
theorem toInt_read_writeBack (s : State) (d : Operand) (w : Word) (r : Reg) :
    ((writeBack (some d) (some w) s.regs).read r).toInt = regsWritten s d w.toInt r := by
  rw [writeBack_read, apply_ite BitVec.toInt]
  rfl

/-- An `F4` instruction with a destination and neither memory signal, whose ALU class answers a word and leaves the
pc, writes that word and advances the pc by 4. -/
theorem completesWith_instr_of_aluResult {o : Opcode} (ho : o ≠ .nop) {s : State} {d s1 s2 : Operand}
    {v : OperandValues} {w : Word}
    (hw : (Control.ofInstr (o.instr d s1 s2)).memWrite = false)
    (hr : (Control.ofInstr (o.instr d s1 s2)).memRead = false)
    (hdest : destOf o d = some d) (hv : resolveAll s d s1 s2 = .ok v)
    (halu : alu (Control.ofInstr (o.instr d s1 s2)).aluClass v.d v.s1 v.s2 s.pc = aluResult w s.pc) :
    CompletesWith (o.instr d s1 s2) s (Control.ofInstr (o.instr d s1 s2)).triple (wrap32 (s.pc.toInt + 4))
      (regsWritten s d w.toInt) (wordsOf s) := by
  refine completesWith_instr_of_no_access ho hw hr hv halu (toInt_add_four s.pc) fun r => ?_
  rw [hdest]
  exact toInt_read_writeBack s d w r

/-- The same with the word computed from the two sources by `f`, where `f` wraps the exact integer operation `g`. -/
theorem completesWith_instr_of_wraps {o : Opcode} (ho : o ≠ .nop)
    (f : Word → Word → Word) (g : Int → Int → Int)
    (hfg : ∀ v w, (f v w).toInt = wrap32 (g v.toInt w.toInt)) {s : State} {d s1 s2 : Operand}
    (hw : (Control.ofInstr (o.instr d s1 s2)).memWrite = false)
    (hr : (Control.ofInstr (o.instr d s1 s2)).memRead = false) (hdest : destOf o d = some d)
    (halu : ∀ dv v w p, alu (Control.ofInstr (o.instr d s1 s2)).aluClass dv v w p = aluResult (f v w) p)
    (hres : frameResolves d s1 s2) :
    CompletesWith (o.instr d s1 s2) s (Control.ofInstr (o.instr d s1 s2)).triple (wrap32 (s.pc.toInt + 4))
      (regsWritten s d (wrap32 (g (operandInt s s1) (operandInt s s2)))) (wordsOf s) := by
  obtain ⟨v, hv⟩ := exists_resolveAll hres s
  obtain ⟨-, h1, h2⟩ := operandInt_of_resolveAll hv
  rw [h1, h2, ← hfg]
  exact completesWith_instr_of_aluResult ho hw hr hdest hv (halu v.d v.s1 v.s2 s.pc)

/-! ### Words computed modulo 2^32 (R11) -/

/-- The difference of two words is the wrapped difference of their signed readings. -/
theorem toInt_sub_eq_wrap32 (v w : Word) : (v - w).toInt = wrap32 (v.toInt - w.toInt) := by
  rw [wrap32_eq_bmod, BitVec.toInt_sub]

/-- The low 32 bits of the product of two words are the wrapped product of their signed readings. -/
theorem toInt_mul_eq_wrap32 (v w : Word) : (v * w).toInt = wrap32 (v.toInt * w.toInt) := by
  rw [wrap32_eq_bmod, BitVec.toInt_mul]

/-! ### The four instructions -/

/-- Settles O23: ALU class 3 adds words, which wraps the exact sum (R150). -/
theorem addWritesWrappedSum : Obligations.AddWritesWrappedSum :=
  ⟨fetchesFrame_instr (o := .add) (by decide), faultsOnMalformed_instr (o := .add) (by decide),
    fun _ _ _ _ => completesWith_instr_of_wraps (o := .add) (by decide) (· + ·) (· + ·)
      toInt_add_eq_wrap32 rfl rfl rfl fun _ _ _ _ => rfl⟩

/-- Settles O24: `addi` has the triple of `add` and is the same step (`exec_addi_eq_exec_add`). -/
theorem addImmediateWritesWrappedSum : Obligations.AddImmediateWritesWrappedSum := by
  refine ⟨fetchesFrame_instr (o := .addi) (by decide), faultsOnMalformed_instr (o := .addi) (by decide),
    fun s d s1 s2 hres => ?_⟩
  obtain ⟨-, -, hadd⟩ := addWritesWrappedSum
  rw [CompletesWith, exec_addi_eq_exec_add]
  exact hadd s d s1 s2 hres

/-- Settles O26: ALU class 4 subtracts words, which wraps the exact difference (R152). -/
theorem subtractWritesWrappedDifference : Obligations.SubtractWritesWrappedDifference :=
  ⟨fetchesFrame_instr (o := .sub) (by decide), faultsOnMalformed_instr (o := .sub) (by decide),
    fun _ _ _ _ => completesWith_instr_of_wraps (o := .sub) (by decide) (· - ·) (· - ·)
      toInt_sub_eq_wrap32 rfl rfl rfl fun _ _ _ _ => rfl⟩

/-- Settles O27: ALU class 9 multiplies words, which wraps the exact product (R153). -/
theorem multiplyWritesWrappedProduct : Obligations.MultiplyWritesWrappedProduct :=
  ⟨fetchesFrame_instr (o := .mul) (by decide), faultsOnMalformed_instr (o := .mul) (by decide),
    fun _ _ _ _ => completesWith_instr_of_wraps (o := .mul) (by decide) (· * ·) (· * ·)
      toInt_mul_eq_wrap32 rfl rfl rfl fun _ _ _ _ => rfl⟩

end Sys2Proof.Machine
end

