-- ==== Sys2Proof/Proofs/LoadStore.lean ====
section
/-! PROOFS. `sw` and `lw` (`43_load_store.md`). Inside data memory each completes with the one word it names;
outside, the two take one fault by one argument. -/

namespace Sys2Proof.Machine

/-! ### An index outside data memory (R195) -/

/-- `sw` and `lw` send the sum of their sources to the load/store unit, which faults on any index outside 0 to
1999. -/
theorem takesFault_of_index_outside {o : Opcode} (ho : o = .sw ∨ o = .lw) {s : State} {d s1 s2 : Operand}
    {idx : Int} (hres : frameResolves d s1 s2) (hidx : idx = wrap32 (operandInt s s1 + operandInt s s2))
    (hout : idx < 0 ∨ 1999 < idx) :
    TakesFault (exec (o.instr d s1 s2) s) s (.outOfRangeAddress idx) := by
  obtain ⟨v, hv⟩ := exists_resolveAll hres s
  obtain ⟨-, h1, h2⟩ := operandInt_of_resolveAll hv
  obtain rfl : (v.s1 + v.s2).toInt = idx := by rw [toInt_add_eq_wrap32, hidx, h1, h2]
  obtain ⟨hread, hwrite⟩ := (memoryAccessIsBoundsChecked s.mem (v.s1 + v.s2) v.d).2 hout
  rcases ho with rfl | rfl
  · have hstep : memoryStep (Control.ofInstr (.sw d s1 s2)) (alu .store v.d v.s1 v.s2 s.pc) s.mem =
        .error (.outOfRangeAddress (v.s1 + v.s2).toInt) := by
      simp [memoryStep, Control.ofInstr, alu, hwrite]
    exact ⟨s.ctl, executeFrame_memory_error hv hstep⟩
  · have hstep : memoryStep (Control.ofInstr (.lw d s1 s2)) (alu .load v.d v.s1 v.s2 s.pc) s.mem =
        .error (.outOfRangeAddress (v.s1 + v.s2).toInt) := by
      simp [memoryStep, Control.ofInstr, alu, aluResult, hread]
    exact ⟨s.ctl, executeFrame_memory_error hv hstep⟩

/-! ### `sw` -/

/-- Data memory after a write that succeeds, read as signed (R56). -/
theorem toInt_word_of_memWrite {s : State} {m : Memory} {idx v : Word} (hm : s.mem.wf)
    (h : memWrite s.mem idx v = .ok m) (k : Nat) :
    (m.word k).toInt = wordsStored s idx.toInt v.toInt k := by
  rw [(word_of_memWrite hm h k).2, apply_ite BitVec.toInt]
  rfl

/-- Settles O28: the step is `exec_sw_of_index`, whose one write fixes every word; outside it is
`takesFault_of_index_outside`. -/
theorem storeWordWritesOneWord : Obligations.StoreWordWritesOneWord := by
  refine ⟨fetchesFrame_instr (o := .sw) (by decide), faultsOnMalformed_instr (o := .sw) (by decide),
    fun s d s1 s2 idx hm hres hidx => ⟨fun h0 hle => ?_, ?_⟩⟩
  · lift idx to ℕ using h0
    obtain ⟨i, v, m, hi, hv, hw, he⟩ := exec_sw_of_index hres hidx (by omega)
    rw [← hi, ← hv]
    exact completesWith_of_exec_eq_complete he (toInt_add_four s.pc) (fun _ => rfl)
      (toInt_word_of_memWrite hm hw)
  · exact takesFault_of_index_outside (.inl rfl) hres hidx

/-! ### `lw` -/

/-- Settles O29: the step is `exec_lw_of_index`, which writes the word back; outside it is
`takesFault_of_index_outside`. -/
theorem loadWordReadsOneWord : Obligations.LoadWordReadsOneWord := by
  refine ⟨fetchesFrame_instr (o := .lw) (by decide), faultsOnMalformed_instr (o := .lw) (by decide),
    fun s d s1 s2 idx hres hidx => ⟨fun h0 hle => ?_, ?_⟩⟩
  · lift idx to ℕ using h0
    exact completesWith_of_exec_eq_complete (exec_lw_of_index hres hidx (by omega)) (toInt_add_four s.pc)
      (toInt_read_writeBack s d (s.word idx)) fun _ => rfl
  · exact takesFault_of_index_outside (.inr rfl) hres hidx

/-! ### The frame of `sw`, on any cell list -/

theorem cellsRead_consCell_of_ne {i k : Nat} (hk : k ≠ i) (v : Word) (rest : List (Nat × Word)) :
    cellsRead (consCell i v rest) k = cellsRead rest k := by
  unfold consCell
  split
  · rfl
  · exact if_neg hk.symm

/-- Away from its index a write changes no word, canonical form or not: whichever cell it puts in, replaces or
drops has that index. -/
theorem cellsRead_cellsWrite_of_ne {i k : Nat} (hk : k ≠ i) (v : Word) (cells : List (Nat × Word)) :
    cellsRead (cellsWrite cells i v) k = cellsRead cells k := by
  induction cells with
  | nil => exact cellsRead_consCell_of_ne hk v []
  | cons c rest ih =>
    obtain ⟨a, w⟩ := c
    simp only [cellsWrite]
    split
    · exact cellsRead_consCell_of_ne hk v _
    · split
      · rename_i hia
        rw [cellsRead_consCell_of_ne hk, cellsRead, if_neg (hia ▸ hk.symm)]
      · rw [cellsRead, cellsRead, ih]

theorem word_of_memWrite_of_ne {m m' : Memory} {idx v : Word} (h : memWrite m idx v = .ok m') {k : Nat}
    (hk : (k : Int) ≠ idx.toInt) : m'.word k = m.word k := by
  rcases memWrite_cases m idx v with ⟨hin, hw⟩ | ⟨-, hw⟩ <;> cases hw.symm.trans h
  have hidx := toNat_of_toInt_nonneg idx ((inMemory_iff idx).1 hin).1
  exact cellsRead_cellsWrite_of_ne (by omega) v m.cells

/-- Settles O38: by `exec_memoryAfter` memory is as it was, or with one word stored at the sum of the sources, and
that only if the operands resolve; `sw` names no destination. -/
theorem storeInstructionFrame : Obligations.StoreInstructionFrame := by
  intro s t d s1 s2 h
  have hreg : ∀ r, ¬ WritesRegister (.sw d s1 s2) (.reg r) := fun r hw => hw.ne_sw d s1 s2 rfl
  have hmem : t.mem = s.mem ∨
      ∃ v, resolveAll s d s1 s2 = .ok v ∧ memWrite s.mem (v.s1 + v.s2) v.d = .ok t.mem := by
    rcases exec_memoryAfter h with hm | ⟨_, _, _, v, ⟨⟩, hv, hw⟩
    · exact .inl hm
    · exact .inr ⟨v, hv, hw⟩
  refine ⟨fun r => exec_readReg h fun hr => hreg r hr.1, ?_, ?_, exec_program h, exec_traceEnable h⟩
  · intro v idx hv hidx k hk
    obtain rfl : v.s1 + v.s2 = idx := Option.some.inj hidx
    rcases hmem with hm | ⟨v', hv', hw⟩
    · exact congrArg (Memory.word · k) hm
    · cases hv'.symm.trans hv
      exact word_of_memWrite_of_ne hw hk
  · intro f hf k
    rcases hmem with hm | ⟨v, hv, -⟩
    · exact congrArg (Memory.word · k) hm
    · cases hv.symm.trans hf

end Sys2Proof.Machine
end

