-- ==== Sys2Proof/Proofs/ShiftLogic.lean ====
section
/-! PROOFS. `sll`, `srl`, `and` and `or` (`44_shift_logic.md`). The shifts wrap an exact operation on the unsigned
reading of their first source; the bitwise two are said bit by bit. -/

namespace Sys2Proof.Machine

/-! ### The unsigned reading and the shift amount -/

/-- `u32(v)` is the signed reading modulo 2^32 (R11). -/
theorem toInt_emod_eq_u32 (v : Word) : v.toInt % 4294967296 = u32 v := by
  have hmod : (v.toNat : Int).bmod (2 ^ 32) % 4294967296 = v.toNat % 4294967296 := Int.bmod_emod
  have hlt := v.isLt
  rw [BitVec.toInt_eq_toNat_bmod, hmod, u32]
  omega

/-- The shift amount is the signed reading modulo 32 as well, 32 being a divisor of 2^32 (R170, D5). -/
theorem toNat_toInt_emod_eq_shiftAmount (w : Word) : (w.toInt % 32).toNat = shiftAmount w := by
  have hdvd : (32 : Int) ∣ 4294967296 := by decide
  rw [← Int.emod_emod_of_dvd _ hdvd, toInt_emod_eq_u32]
  rfl

/-! ### Words shifted -/

/-- A shift left is the wrapped exact product with a power of two (R171). -/
theorem toInt_shiftLeft_eq_wrap32 (v w : Word) :
    (v <<< shiftAmount w).toInt = wrap32 (v.toInt % 4294967296 * 2 ^ (w.toInt % 32).toNat) := by
  rw [toInt_emod_eq_u32, toNat_toInt_emod_eq_shiftAmount, wrap32_eq_bmod, BitVec.toInt_shiftLeft,
    Nat.shiftLeft_eq, u32]
  push_cast
  rfl

/-- A shift right is the wrapped exact quotient by a power of two (R172). -/
theorem toInt_ushiftRight_eq_wrap32 (v w : Word) :
    (v >>> shiftAmount w).toInt = wrap32 (v.toInt % 4294967296 / 2 ^ (w.toInt % 32).toNat) := by
  rw [toInt_emod_eq_u32, toNat_toInt_emod_eq_shiftAmount, wrap32_eq_bmod, BitVec.toInt_eq_toNat_bmod,
    BitVec.toNat_ushiftRight, Nat.shiftRight_eq_div_pow, u32]
  push_cast
  rfl

/-- Settles O31: ALU class 7 shifts left, which wraps the exact product (R171). -/
theorem shiftLeftFillsWithZeros : Obligations.ShiftLeftFillsWithZeros :=
  ⟨fetchesFrame_instr (o := .sll) (by decide), faultsOnMalformed_instr (o := .sll) (by decide),
    fun _ _ _ _ => completesWith_instr_of_wraps (o := .sll) (by decide) (fun v w => v <<< shiftAmount w)
      (fun m n => m % 4294967296 * 2 ^ (n % 32).toNat) toInt_shiftLeft_eq_wrap32 rfl rfl rfl
      fun _ _ _ _ => rfl⟩

/-- Settles O32: ALU class 8 shifts right, which takes the exact quotient (R172). -/
theorem shiftRightFillsWithZeros : Obligations.ShiftRightFillsWithZeros :=
  ⟨fetchesFrame_instr (o := .srl) (by decide), faultsOnMalformed_instr (o := .srl) (by decide),
    fun _ _ _ _ => completesWith_instr_of_wraps (o := .srl) (by decide) (fun v w => v >>> shiftAmount w)
      (fun m n => m % 4294967296 / 2 ^ (n % 32).toNat) toInt_ushiftRight_eq_wrap32 rfl rfl rfl
      fun _ _ _ _ => rfl⟩

/-! ### Words combined bit by bit -/

/-- An `F4` instruction whose ALU class answers a word `f` of the two sources, `f` combining their bits by `b`,
writes a word that has those bits. -/
theorem exists_bits_completesWith_instr {o : Opcode} (ho : o ≠ .nop)
    (f : Word → Word → Word) (b : Bool → Bool → Bool)
    (hfb : ∀ v w k, (f v w).getLsbD k = b (v.getLsbD k) (w.getLsbD k)) {s : State} {d s1 s2 : Operand}
    (hw : (Control.ofInstr (o.instr d s1 s2)).memWrite = false)
    (hr : (Control.ofInstr (o.instr d s1 s2)).memRead = false) (hdest : destOf o d = some d)
    (halu : ∀ dv v w p, alu (Control.ofInstr (o.instr d s1 s2)).aluClass dv v w p = aluResult (f v w) p)
    (hres : frameResolves d s1 s2) :
    ∃ v : Word, (∀ k, k < 32 → v.getLsbD k =
        b ((wordOfInt (operandInt s s1)).getLsbD k) ((wordOfInt (operandInt s s2)).getLsbD k)) ∧
      CompletesWith (o.instr d s1 s2) s (Control.ofInstr (o.instr d s1 s2)).triple (wrap32 (s.pc.toInt + 4))
        (regsWritten s d v.toInt) (wordsOf s) := by
  obtain ⟨v, hv⟩ := exists_resolveAll hres s
  obtain ⟨-, h1, h2⟩ := operandInt_of_resolveAll hv
  refine ⟨f v.s1 v.s2, fun k _ => ?_,
    completesWith_instr_of_aluResult ho hw hr hdest hv (halu v.d v.s1 v.s2 s.pc)⟩
  rw [h1, h2, wordOfInt, wordOfInt, BitVec.ofInt_toInt, BitVec.ofInt_toInt, hfb]

/-- Settles O33: ALU class 10 is the AND of words, bit by bit (R173). -/
theorem andCombinesBits : Obligations.AndCombinesBits :=
  ⟨fetchesFrame_instr (o := .and) (by decide), faultsOnMalformed_instr (o := .and) (by decide),
    fun _ _ _ _ => exists_bits_completesWith_instr (o := .and) (by decide) (· &&& ·) (· && ·)
      (fun _ _ _ => BitVec.getLsbD_and) rfl rfl rfl fun _ _ _ _ => rfl⟩

/-- Settles O34: ALU class 11 is the OR of words, bit by bit (R174). -/
theorem orCombinesBits : Obligations.OrCombinesBits :=
  ⟨fetchesFrame_instr (o := .or) (by decide), faultsOnMalformed_instr (o := .or) (by decide),
    fun _ _ _ _ => exists_bits_completesWith_instr (o := .or) (by decide) (· ||| ·) (· || ·)
      (fun _ _ _ => BitVec.getLsbD_or) rfl rfl rfl fun _ _ _ _ => rfl⟩

end Sys2Proof.Machine
end

