-- ==== Sys2Proof/Proofs/NopUnknown.lean ====
section
/-! PROOFS. `nop` and the unrecognised opcode (`45_nop_unknown.md`). The token at the pc alone selects either, so no
stream cuts it short, and each completes with the registers and the data memory there were. -/

namespace Sys2Proof.Machine

/-- An opcode token that is one instruction whatever follows it is executed wherever the stream ends. -/
theorem step_of_tok {s : State} {op : Token} {i : Instr} (hs : s.status = .running)
    (htok : s.tok s.pc.toInt = some op) (hd : ∀ rest, decode (op :: rest) = .instr i) :
    step s = exec i s :=
  step_instr hs (fetch_of_decode_instr (State.tok_eq_some.1 htok).1 (drop_of_tok htok ▸ hd _))

/-- The effective pc of `nop` turns the uniform advance into one of 1 (R112, R128). -/
theorem toInt_sub_three_add_four (v : Word) : (v - 3 + 4).toInt = wrap32 (v.toInt + 1) := by
  have hone : v - 3 + 4 = v + 1 := by bv_omega
  rw [hone]
  exact toInt_add_eq_wrap32 v 1

/-- A token with no row in the decode table selects no opcode. -/
theorem ofToken_eq_none_of_not_mem_decodeTable {op : Token} (h : ∀ triple, (op, triple) ∉ decodeTable) :
    Opcode.ofToken op = none :=
  Opcode.ofToken_eq_none.2 fun o ho =>
    h _ ((mem_decodeTable_iff (.lit 0) (.lit 0) (.lit 0)).2 ⟨o, ho.symm, rfl⟩)

/-- Settles O35: the decoder reads one token for `nop`, whose effective pc is `P - 3` (R112, R180). -/
theorem nopAdvancesByOneToken : Obligations.NopAdvancesByOneToken :=
  ⟨fun _ hs htok => step_of_tok hs htok decode_nop,
    fun s => completesWith_of_exec_eq_complete (exec_nop s) (toInt_sub_three_add_four s.pc)
      (fun _ => rfl) fun _ => rfl⟩

/-- Settles O36: the decoder reads one token outside the table as unrecognised, and the effective pc is `P`, so only
the uniform advance moves it (R82, R181). -/
theorem unrecognisedOpcodeIsSkipped : Obligations.UnrecognisedOpcodeIsSkipped :=
  ⟨fun _ op hs htok hno => step_of_tok hs htok fun rest =>
      decode_unrecognised op rest (ofToken_eq_none_of_not_mem_decodeTable hno),
    fun s op => completesWith_of_exec_eq_complete (exec_unrecognised op s) (toInt_add_four s.pc)
      (fun _ => rfl) fun _ => rfl⟩

end Sys2Proof.Machine
end

