-- ==== Sys2Proof/Proofs/Faults.lean ====
section
/-! PROOFS. The fatal faults (`60_exceptions.md`): when each is raised, what it reports, and what a
faulting step leaves. -/

namespace Sys2Proof

/-! ### The tokens of a frame -/

/-- The opcode token of what is decoded is the first token read (R70). -/
theorem head_encode_of_decode {op : Token} {rest : List Token} {i : Instr}
    (h : decode (op :: rest) = .instr i) : (encode i).head? = some op := by
  rcases decode_cons_cases h with ⟨-, rfl⟩ | ⟨o, d, s1, s2, rfl, rfl⟩
  · rfl
  · cases o <;> rfl

/-- Only an `F4` opcode has a frame that the end of the stream can cut short (R106). -/
theorem exists_opcode_of_decode_truncated {toks : List Token} (h : decode toks = .truncated) :
    ∃ (o : Opcode) (rest : List Token), o ≠ .nop ∧ toks = o.token :: rest := by
  rcases decode_cases toks with ⟨-, hd⟩ | ⟨_, _, -, -, hd⟩ | ⟨_, -, hd⟩ | ⟨o, rest, ho, htoks, -, -⟩ |
    ⟨_, _, _, _, _, -, -, hd⟩
  · cases hd.symm.trans h
  · cases hd.symm.trans h
  · cases hd.symm.trans h
  · exact ⟨o, rest, ho, htoks⟩
  · cases hd.symm.trans h

end Sys2Proof

namespace Sys2Proof.Machine

theorem tok_pc_of_drop {s : State} {op : Token} {rest : List Token} (hpc : 0 ≤ s.pc.toInt)
    (h : s.program.drop s.pc.toInt.toNat = op :: rest) : s.tok s.pc.toInt = some op := by
  have htok := State.tok_of_drop (k := 0) hpc (congrArg (·[0]?) h)
  rwa [Nat.cast_zero, add_zero] at htok

/-- The token at the pc is the opcode token of the `F4` instruction the fetch unit finds. -/
theorem tok_pc_of_fetch {s : State} {o : Opcode} (ho : o ≠ .nop) {d s1 s2 : Operand}
    (h : fetch s = .instr (o.instr d s1 s2)) : s.tok s.pc.toInt = some o.token := by
  obtain ⟨hpc, hd⟩ := decode_of_fetch h
  rcases htoks : s.program.drop s.pc.toInt.toNat with _ | ⟨op, rest⟩
  · rw [htoks] at hd
    cases hd
  · rw [htoks] at hd
    rw [tok_pc_of_drop hpc htoks, ← head_encode_of_decode hd, Opcode.encode_instr ho]
    rfl

/-- Each operand of the instruction the fetch unit finds is read from its own token after the pc (R72). -/
theorem tok_of_operand {s : State} {i : Instr} {k : Nat} {x : Operand} (hi : fetch s = .instr i)
    (hx : i.operands[k]? = some x) :
    ∃ tok, s.tok (s.pc.toInt + (k + 1 : Nat)) = some tok ∧ Operand.ofToken tok = x := by
  obtain ⟨hpc, hd⟩ := decode_of_fetch hi
  obtain ⟨tok, htok, hx⟩ := decode_operand hd hx
  exact ⟨tok, State.tok_of_drop hpc htok, hx⟩

/-! ### The faults of the fetch unit -/

/-- Settles O12: the fetch test looks at the sign of the pc before anything else (R101). -/
theorem negativePcFaults : Obligations.NegativePcFaults :=
  fun s hs hneg => ⟨s.ctl, step_fetchFault hs (if_pos hneg)⟩

/-! ### The faults of an instruction -/

theorem resolvable_of_resolve {s : State} {slot : Nat} {o : Operand} {v : Word}
    (h : resolve s slot o = .ok v) : resolvable o = true := by
  cases o with
  | reg r => rfl
  | lit w => rfl
  | malformed t => cases h

/-- The malformed operand the resolver reports is the first one of the frame (R108). -/
theorem resolveAll_error_first {s : State} {d s1 s2 : Operand} {f : Fault}
    (h : resolveAll s d s1 s2 = .error f) :
    ∃ k t, k < 3 ∧ [d, s1, s2][k]? = some (.malformed t) ∧
      f = .malformedOperand t (s.pc.toInt + (k + 1 : Nat)) ∧
      ∀ j < k, ∃ x, [d, s1, s2][j]? = some x ∧ resolvable x = true := by
  rcases resolveAll_cases s d s1 s2 with ⟨v, -, -, -, hf⟩ | ⟨t, rfl, hf⟩ | ⟨t, v, hd, rfl, hf⟩ |
    ⟨t, v, w, hd, h1, rfl, hf⟩ <;> cases hf.symm.trans h
  · exact ⟨0, t, by decide, rfl, rfl, fun j hj => absurd hj (Nat.not_lt_zero j)⟩
  · refine ⟨1, t, by decide, rfl, rfl, fun j hj => ?_⟩
    obtain rfl : j = 0 := by omega
    exact ⟨d, rfl, resolvable_of_resolve hd⟩
  · refine ⟨2, t, by decide, rfl, rfl, fun j hj => ?_⟩
    obtain rfl | rfl : j = 0 ∨ j = 1 := by omega
    · exact ⟨d, rfl, resolvable_of_resolve hd⟩
    · exact ⟨s1, rfl, resolvable_of_resolve h1⟩

/-- Only an instruction with a memory signal can fault in the memory step (R120). -/
theorem signal_of_memoryStep_error {c : Control} {out : AluOutput} {m : Memory} {f : Fault}
    (h : memoryStep c out m = .error f) : c.memWrite = true ∨ c.memRead = true := by
  rcases memoryStep_cases c out m with ⟨_, hm⟩ | ⟨_, _, -, -, -, -, hm⟩ | ⟨_, -, hc, -⟩
  · cases hm.symm.trans h
  · cases hm.symm.trans h
  · exact hc

/-- `lw` is the one opcode whose control triple has the memory-read signal (R104). -/
theorem memRead_ofInstr_iff (o : Opcode) (d s1 s2 : Operand) :
    (Control.ofInstr (o.instr d s1 s2)).memRead = true ↔ o = .lw := by
  cases o <;> simp [Opcode.instr, Control.ofInstr]

/-- All an instruction that faults can be: one of the twelve `F4` instructions with the resolver's fault, or a `sw`
or `lw` with an index outside data memory. -/
theorem exec_faulted_cases {i : Instr} {s t : State} {f : Fault} (hs : s.status = .running)
    (h : exec i s = .next t) (ht : t.status = .faulted f) :
    t = s.raise f ∧ ∃ (o : Opcode) (d s1 s2 : Operand), o ≠ .nop ∧ i = o.instr d s1 s2 ∧
      (resolveAll s d s1 s2 = .error f ∨
        (o = .sw ∨ o = .lw) ∧ ∃ idx : Word, inMemory idx = false ∧ f = .outOfRangeAddress idx.toInt) := by
  rcases instr_cases i with rfl | ⟨op, rfl⟩ | ⟨o, d, s1, s2, ho, rfl⟩
  · cases h
    simp [hs] at ht
  · cases h
    simp [hs] at ht
  · rw [exec_instr o ho] at h
    rcases executeFrame_cases h with ⟨g, hg, rfl⟩ | ⟨v, g, -, hg, rfl⟩ | ⟨v, m, value, -, -, rfl⟩
    · cases ht
      exact ⟨rfl, o, d, s1, s2, ho, rfl, .inl hg⟩
    · cases ht
      have hc := signal_of_memoryStep_error hg
      rw [memWrite_ofInstr_iff, memRead_ofInstr_iff] at hc
      exact ⟨rfl, o, d, s1, s2, ho, rfl, .inr ⟨hc, memoryStep_error hg⟩⟩
    · simp [hs] at ht

/-- Settles O16: the resolver's grammar, `faultsOnMalformed_instr` for each of the twelve opcodes, and the other two
instructions, which end in `State.complete` with no operand looked at. -/
theorem malformedOperandFaults : Obligations.MalformedOperandFaults := by
  refine ⟨fun t hr hl => Operand.ofToken_eq_malformed hr hl, ?_, ?_⟩
  · exact ⟨faultsOnMalformed_instr (o := .j) (by decide), faultsOnMalformed_instr (o := .beq) (by decide),
      faultsOnMalformed_instr (o := .add) (by decide), faultsOnMalformed_instr (o := .addi) (by decide),
      faultsOnMalformed_instr (o := .sub) (by decide), faultsOnMalformed_instr (o := .sw) (by decide),
      faultsOnMalformed_instr (o := .lw) (by decide), faultsOnMalformed_instr (o := .sll) (by decide),
      faultsOnMalformed_instr (o := .srl) (by decide), faultsOnMalformed_instr (o := .mul) (by decide),
      faultsOnMalformed_instr (o := .and) (by decide), faultsOnMalformed_instr (o := .or) (by decide)⟩
  · rintro s i (rfl | ⟨op, rfl⟩)
    · exact ⟨_, exec_nop s, State.complete_status ..⟩
    · exact ⟨_, exec_unrecognised op s, State.complete_status ..⟩

/-- Settles O19: `takesFault_of_index_outside` for the two instructions; the resolver's fault is another one, so by
`exec_faulted_cases` no other instruction has it. -/
theorem outOfRangeAddressFaults : Obligations.OutOfRangeAddressFaults := by
  refine ⟨fun s d s1 s2 hres hout => ⟨takesFault_of_index_outside (.inr rfl) hres rfl hout,
    takesFault_of_index_outside (.inl rfl) hres rfl hout⟩, fun s t i idx hs h ht => ?_⟩
  obtain ⟨-, o, d, s1, s2, -, rfl, hf | ⟨rfl | rfl, -⟩⟩ := exec_faulted_cases hs h ht
  · obtain ⟨k, tok, -, -, hk⟩ := resolveAll_error hf
    cases hk
  · exact ⟨d, s1, s2, .inr rfl⟩
  · exact ⟨d, s1, s2, .inl rfl⟩

/-! ### The faults of a step -/

/-- All a step that faults can do: take the fetch unit's fault, or that of the instruction at the pc. -/
theorem step_faulted_cases {s t : State} {f : Fault} (hs : s.status = .running)
    (h : step s = .next t) (ht : t.status = .faulted f) :
    t = s.raise f ∧ (fetch s = .fault f ∨ ∃ i, fetch s = .instr i ∧ exec i s = .next t) := by
  rcases step_cases h with ⟨hs', -⟩ | ⟨-, -, rfl⟩ | ⟨-, g, hf, rfl⟩ | ⟨-, i, hi, he⟩
  · cases hs.symm.trans hs'
  · cases ht
  · cases ht
    exact ⟨rfl, .inl hf⟩
  · exact ⟨(exec_faulted_cases hs he ht).1, .inr ⟨i, hi, he⟩⟩

/-- Settles O15: a step that faults ends in `State.raise`, which sets the run status and nothing else. -/
theorem faultsArePrecise : Obligations.FaultsArePrecise := by
  intro s t f hs h ht
  obtain ⟨rfl, -⟩ := step_faulted_cases hs h ht
  rfl

/-- Settles O18: the fetch unit's two faults by `fetch_cases`, the resolver's by `resolveAll_error_first` with each
operand traced to its token, the load/store unit's by `exec_faulted_cases`. -/
theorem faultsHaveTheirCause : Obligations.FaultsHaveTheirCause := by
  intro s t f hs h ht
  obtain ⟨-, hf | ⟨i, hi, he⟩⟩ := step_faulted_cases hs h ht
  · rcases fetch_cases s with ⟨hneg, hf'⟩ | ⟨-, -, -, hf'⟩ | ⟨hpc, hd, -, hlen, hf'⟩ | ⟨-, -, i, -, hf'⟩ <;>
      cases hf'.symm.trans hf
    · exact ⟨rfl, hneg⟩
    · obtain ⟨o, rest, ho, hdrop⟩ := exists_opcode_of_decode_truncated hd
      exact ⟨rfl, hlen, o.token, o, tok_pc_of_drop hpc hdrop, Opcode.ofToken_token o, ho⟩
  · obtain ⟨-, o, d, s1, s2, ho, rfl, hf | ⟨hmem, idx, hin, rfl⟩⟩ := exec_faulted_cases hs he ht
    · obtain ⟨k, tok, hk, hop, rfl, hfirst⟩ := resolveAll_error_first hf
      rw [← Opcode.operands_instr ho] at hop hfirst
      obtain ⟨tok', htok, hmal⟩ := tok_of_operand hi hop
      obtain rfl := Operand.ofToken_malformed hmal
      refine ⟨htok, hmal, by omega, by omega, fun k' hlo hhi => ?_,
        o.token, o, tok_pc_of_fetch ho hi, Opcode.ofToken_token o, ho⟩
      obtain ⟨j, rfl⟩ : ∃ j : Nat, k' = s.pc.toInt + (j + 1 : Nat) :=
        ⟨(k' - s.pc.toInt - 1).toNat, by omega⟩
      obtain ⟨x, hx, hres⟩ := hfirst j (by omega)
      obtain ⟨tok', htok', rfl⟩ := tok_of_operand hi hx
      exact ⟨tok', htok', hres⟩
    · have hout : ¬ (0 ≤ idx.toInt ∧ idx.toInt < 2000) := by simp [← inMemory_iff, hin]
      refine ⟨by omega, ?_⟩
      rcases hmem with rfl | rfl
      · exact .inr (tok_pc_of_fetch ho hi)
      · exact .inl (tok_pc_of_fetch ho hi)

end Sys2Proof.Machine
end

