-- ==== Sys2Proof/Proofs/PcAndTrace.lean ====
section
/-! PROOFS. What a step leaves in the pc (`10_state.md` R34, `60_exceptions.md` R197), and what it emits on the trace
port (R212). -/

namespace Sys2Proof.Machine

/-! ### Where a negative pc comes from -/

/-- The pcs `i` can leave in `s` when it completes: one token on (R180) or four (R128), for `j` its target (R140), for
a `beq` that is taken its target (R141). -/
def PcAfter (i : Instr) (s : State) (p : Int) : Prop :=
  p = wrap32 (s.pc.toInt + 1) ∨ p = wrap32 (s.pc.toInt + 4) ∨
  (∃ d s1 s2, i = .j d s1 s2 ∧ p = operandInt s d) ∨
  ∃ d s1 s2, i = .beq d s1 s2 ∧ operandInt s d = operandInt s s1 ∧
    p = wrap32 (s.pc.toInt + operandInt s s2 + 4)

/-- The effective pc of the ALU (R114) with the uniform advance after it: only classes 1 and 2 change it. -/
theorem pcAfter_alu (o : Opcode) {d s1 s2 : Operand} {s : State} {v : OperandValues}
    (hv : resolveAll s d s1 s2 = .ok v) :
    PcAfter (o.instr d s1 s2) s
      ((alu (Control.ofInstr (o.instr d s1 s2)).aluClass v.d v.s1 v.s2 s.pc).epc + 4).toInt := by
  obtain ⟨hd, h1, h2⟩ := operandInt_of_resolveAll hv
  cases o with
  | j =>
    have htarget : (v.d - 4 + 4).toInt = operandInt s d := by rw [BitVec.sub_add_cancel, hd]
    exact .inr (.inr (.inl ⟨d, s1, s2, rfl, htarget⟩))
  | beq =>
    show PcAfter (.beq d s1 s2) s ((if v.d = v.s1 then s.pc + v.s2 else s.pc) + 4).toInt
    split
    · rename_i htaken
      refine .inr (.inr (.inr ⟨d, s1, s2, rfl, by rw [hd, h1, htaken], ?_⟩))
      rw [toInt_add_four, toInt_add_eq_wrap32, wrap32_wrap32_add, h2]
    · exact .inr (.inl (toInt_add_four s.pc))
  | _ => exact .inr (.inl (toInt_add_four s.pc))

/-- An instruction keeps the pc, taking a fault, or it completes. -/
theorem exec_pcAfter {i : Instr} {s t : State} (h : exec i s = .next t) :
    t.pc = s.pc ∨ (t.status = s.status ∧ PcAfter i s t.pc.toInt) := by
  rcases instr_cases i with rfl | ⟨op, rfl⟩ | ⟨o, d, s1, s2, ho, rfl⟩
  · cases h
    refine .inr ⟨State.complete_status .., .inl ?_⟩
    rw [State.complete_pc, toInt_sub_three_add_four]
  · cases h
    refine .inr ⟨State.complete_status .., .inr (.inl ?_)⟩
    rw [State.complete_pc, toInt_add_four]
  · rw [exec_instr o ho] at h
    rcases executeFrame_cases h with ⟨f, -, rfl⟩ | ⟨v, f, -, -, rfl⟩ | ⟨v, m, value, hv, -, rfl⟩
    · exact .inl rfl
    · exact .inl rfl
    · refine .inr ⟨State.complete_status .., ?_⟩
      rw [State.complete_pc]
      exact pcAfter_alu o hv

/-- Wrapping makes an integer negative only where it was, or where it passes the largest word. -/
theorem out_of_range_of_wrap32_neg {n : Int} (h : wrap32 n < 0) : n < 0 ∨ 2147483647 < n := by
  unfold wrap32 at h
  omega

/-- Inside a stream of allowed length the advance by 1 or by 4 does not wrap, so a negative pc is the target of a `j` or
of a taken `beq`. -/
theorem transfer_of_pcAfter_neg {i : Instr} {s : State} {p : Int} (h : PcAfter i s p) (hp : p < 0)
    (hpc : 0 ≤ s.pc.toInt) (hlt : s.pc.toInt + 4 ≤ 2147483647) :
    ∃ d s1 s2, (i = .j d s1 s2 ∧ operandInt s d < 0) ∨
      (i = .beq d s1 s2 ∧ operandInt s d = operandInt s s1 ∧
        (s.pc.toInt + operandInt s s2 + 4 < 0 ∨ 2147483647 < s.pc.toInt + operandInt s s2 + 4)) := by
  rcases h with rfl | rfl | ⟨d, s1, s2, rfl, rfl⟩ | ⟨d, s1, s2, rfl, heq, rfl⟩
  · have hout := out_of_range_of_wrap32_neg hp
    omega
  · have hout := out_of_range_of_wrap32_neg hp
    omega
  · exact ⟨d, s1, s2, .inl ⟨rfl, hp⟩⟩
  · exact ⟨d, s1, s2, .inr ⟨rfl, heq, out_of_range_of_wrap32_neg hp⟩⟩

/-- Settles O22: the halt and every fault keep the pc, so the step is an instruction that completes, and
`transfer_of_pcAfter_neg` says which. -/
theorem negativePcComesFromTransfer : Obligations.NegativePcComesFromTransfer := by
  intro s t hs hpc hlen h hneg
  have hmoved : t.pc ≠ s.pc := by
    intro hkeep
    rw [hkeep] at hneg
    omega
  rcases step_cases h with ⟨-, rfl⟩ | ⟨-, -, rfl⟩ | ⟨-, f, -, rfl⟩ | ⟨-, i, hi, he⟩
  · exact absurd rfl hmoved
  · exact absurd rfl hmoved
  · exact absurd rfl hmoved
  · obtain ⟨hstatus, hafter⟩ := (exec_pcAfter he).resolve_left hmoved
    have hinside : s.pc.toInt + 4 ≤ 2147483647 := by
      have hend : ¬ (s.program.length : Int) ≤ s.pc.toInt := by simp [← fetch_eq_pastEnd_iff, hi]
      rw [Config.maxStreamLength] at hlen
      omega
    simp only [(decode_of_fetch hi).2, Decoded.instr.injEq]
    exact ⟨hstatus.trans hs, transfer_of_pcAfter_neg hafter hneg hpc hinside⟩

/-! ### What a step emits -/

/-- Settles O44: the three ends of the step of a running machine, each with its own record. -/
theorem tracePortEmitsSnapshots : Obligations.TracePortEmitsSnapshots := by
  intro s t hs h
  rcases step_cases h with ⟨hs', -⟩ | ⟨-, -, rfl⟩ | ⟨-, f, -, rfl⟩ | ⟨-, i, -, he⟩
  · cases hs.symm.trans hs'
  · exact State.halt_trace s
  · exact State.raise_trace f s
  · rcases exec_cases he with ⟨f, -, rfl⟩ | ⟨epc, m, g, -, -, rfl⟩
    · exact State.raise_trace f s
    · simp [hs, State.complete_trace]

end Sys2Proof.Machine
end

