-- ==== Sys2Proof/Proofs/Reset.lean ====
section
/-! PROOFS. What a reset leaves (`10_state.md` R47, `70_reset_and_hazards.md` R220), whatever stream and
`TRACE_ENABLE` it keeps. -/

namespace Sys2Proof.Machine

/-! ### Cleared storage -/

@[simp] theorem RegFile.read_cleared (r : Reg) : ({} : RegFile).read r = 0 := by
  cases r <;> rfl

@[simp] theorem Memory.word_empty (k : Nat) : Memory.word ⟨[]⟩ k = 0 := rfl

@[simp] theorem Control.none_triple : Control.none.triple = (0, 0, 0) := rfl

/-! ### The state a reset leaves -/

section ResetWith
variable (program : List Token) (traceEnable : Bool)

@[simp] theorem State.resetWith_pc_toInt : (State.resetWith program traceEnable).pc.toInt = 0 :=
  BitVec.toInt_zero

@[simp] theorem State.resetWith_readReg (r : Reg) : (State.resetWith program traceEnable).readReg r = 0 :=
  RegFile.read_cleared r

@[simp] theorem State.resetWith_word (k : Nat) : (State.resetWith program traceEnable).word k = 0 :=
  Memory.word_empty k

@[simp] theorem State.resetWith_triple : (State.resetWith program traceEnable).ctl.triple = (0, 0, 0) :=
  Control.none_triple

end ResetWith

/-! ### The reset of the host and the state before a stream is loaded -/

/-- Settles O1: `hostReset` is `resetWith` of the inputs the state holds, so every register and word is that of cleared
storage. -/
theorem resetLeavesZeroState : Obligations.ResetLeavesZeroState := fun s =>
  ⟨State.resetWith_pc_toInt .., State.resetWith_readReg s.program s.traceEnable,
    State.resetWith_word s.program s.traceEnable, State.resetWith_triple .., s.hostReset_status, s.hostReset_program,
    s.hostReset_traceEnable⟩

/-- Settles O2: `reset` is `resetWith` of the empty stream with tracing off. -/
theorem resetStateIsZero : Obligations.ResetStateIsZero :=
  ⟨State.resetWith_pc_toInt .., State.resetWith_readReg [] false, State.resetWith_word [] false,
    State.resetWith_triple .., rfl, rfl, rfl, rfl⟩

end Sys2Proof.Machine
end
